-- ==== Sys2Proof/Word.lean ====
section
/-! DEFINITION. The bit widths of the block: the command word, a byte, and a lane (spec/00_scope.md R6, R9, R10). -/

namespace Sys2Proof

/-- The 32-bit command word of the command channel (R65). Bit 0 is the least significant bit (R10). -/
abbrev Word := BitVec 32

/-- One byte of the payload, of `block_buffer` or of the digest (R22). -/
abbrev Byte := BitVec 8

/-- One 64-bit lane of the permutation state (R20). -/
abbrev Lane := BitVec 64

/-- The 25 lanes of the 1600-bit permutation state; lane `i = x + 5y` is `A[x,y]` (R11, R20). -/
abbrev Lanes := Vector Lane 25

end Sys2Proof
end

