-- ==== Sys2Proof/Syntax.lean ====
section
/-! DEFINITION. The commands of the block, one constructor per row of spec/opcode_table.json (R68, R74). -/

namespace Sys2Proof

/-- A decoded command (R74). `hp` is "handle present" and `bp` is "buffer present" (R66); both are operands, not
selectors (R68). A count or a bit size is the zero-extended ARG field, compared and counted as a number (R67).
The payload is no field of the command word: it follows the word on the channel (R65, R73). -/
inductive Instr where
  /-- INIT `bitsize` (R113). -/
  | init (hp : Bool) (bitsize : Nat)
  /-- UPDATE `length` (R115). -/
  | update (hp bp : Bool) (length : Nat)
  /-- FINALIZE (R120). -/
  | finalize (hp bp : Bool)
  deriving DecidableEq, Repr

end Sys2Proof
end

