-- ==== Sys2Proof/WellFormed.lean ====
section
/-! DEFINITION. Which commands the 32-bit word can carry: every ARG operand is a 16-bit number (R66, R67). -/

namespace Sys2Proof

/-- A value fits the 16-bit ARG field, "0..65535. The assembler rejects larger values" (R66, R75). -/
def fitsArg (n : Nat) : Bool := decide (n < 65536)

/-- A command that some command word encodes (R66, R68). -/
def Instr.wellFormed : Instr → Bool
  | .init _ bitsize => fitsArg bitsize
  | .update _ _ length => fitsArg length
  | .finalize _ _ => true

end Sys2Proof
end

