-- ==== Sys2Proof/Decode.lean ====
section
/-! DEFINITION. The command word: its fields, the total decoder of R74 with a name for each rejection, the announced
payload length (R73), and the encoder written from the same table (R66, R68). -/

namespace Sys2Proof

/-- OP = `word[3:0]` (R66). -/
def opField (w : Word) : Nat := (w.extractLsb' 0 4).toNat

/-- HP = `word[4]` (R66, R67). -/
def hpField (w : Word) : Bool := w.getLsbD 4

/-- BP = `word[5]` (R66, R67). -/
def bpField (w : Word) : Bool := w.getLsbD 5

/-- RSV = `word[15:6]` (R66). -/
def rsvField (w : Word) : Nat := (w.extractLsb' 6 10).toNat

/-- ARG = `word[31:16]`, zero-extended: "never sign-extended, scaled or shifted" (R66, R67). -/
def argField (w : Word) : Nat := (w.extractLsb' 16 16).toNat

/-- Why a word is no command. Every reason executes as ILLEGAL_COMMAND (R69 to R71, R74). -/
inductive Illegal where
  /-- RSV ≠ 0, whatever the OP (R70). -/
  | reservedField
  /-- OP is 0x0 or 0x4 to 0xF (R69). -/
  | reservedOp
  /-- INIT with BP = 1 (R71). -/
  | initWithBuffer
  /-- FINALIZE with ARG ≠ 0 (R71). -/
  | finalizeWithArg
  deriving DecidableEq, Repr

/-- The decoder: "a total function from the 32-bit word" (R74). An error is the spec's `ILLEGAL`, with its reason. -/
def decode (w : Word) : Except Illegal Instr :=
  if rsvField w ≠ 0 then .error .reservedField
  else match opField w with
    | 1 => if bpField w then .error .initWithBuffer else .ok (.init (hpField w) (argField w))
    | 2 => .ok (.update (hpField w) (bpField w) (argField w))
    | 3 => if argField w ≠ 0 then .error .finalizeWithArg else .ok (.finalize (hpField w) (bpField w))
    | _ => .error .reservedOp

/-- The announced payload length of a word: it reads only OP, BP and ARG, whether or not the word decodes (R73). -/
def announced (w : Word) : Nat :=
  if opField w = 2 ∧ bpField w = true then argField w else 0

/-- The payload length that a command announces (R73, the opcode table's `payload_bytes`). -/
def Instr.announced : Instr → Nat
  | .init _ _ => 0
  | .update _ bp length => if bp then length else 0
  | .finalize _ _ => 0

/-- A command word from its fields, most significant first: ARG, RSV, BP, HP, OP (R66). -/
def packWord (arg rsv : Nat) (bp hp : Bool) (op : Nat) : Word :=
  BitVec.ofNat 16 arg ++ BitVec.ofNat 10 rsv ++ BitVec.ofBool bp ++ BitVec.ofBool hp ++ BitVec.ofNat 4 op

/-- The word of a well-formed command (R68). -/
def encode : Instr → Word
  | .init hp bitsize => packWord bitsize 0 false hp 1
  | .update hp bp length => packWord length 0 bp hp 2
  | .finalize hp bp => packWord 0 0 bp hp 3

/-- The `match` and `mask` columns of the command's row (R68): the word selects the row when
`word ∧ mask = match`. -/
def Instr.rowMatch : Instr → Word
  | .init _ _ => 0x00000001
  | .update _ _ _ => 0x00000002
  | .finalize _ _ => 0x00000003

@[inherit_doc Instr.rowMatch]
def Instr.rowMask : Instr → Word
  | .init _ _ => 0x0000FFEF
  | .update _ _ _ => 0x0000FFCF
  | .finalize _ _ => 0xFFFFFFCF

/-- The command word whose low `nbits` bits are those of `w`, every bit above them zero. The word is one 32-bit
value on a 32-bit channel, with no byte order of its own (R49). -/
def tableWord (nbits w : Nat) : Word := BitVec.ofNat 32 (w % 2 ^ nbits)

/-- The command the decoder reads from a word numbered as spec/opcode_table.json numbers it. -/
def decodeTableWord (nbits w : Nat) : Option Instr :=
  match decode (tableWord nbits w) with
  | .ok i => some i
  | .error _ => none

end Sys2Proof
end

