-- ==== Sys2Proof/Config.lean ====
section
/-! DEFINITION. What is fixed for one block: the parameters of R6 to R9, and the values the spec leaves open
(U6, U7 of spec/93_implementation_defined.md) as constants with no body. -/

namespace Sys2Proof

/-- The engine's working registers (R31): the round index and the theta temporaries `C[0..4]` and `D[0..4]`. -/
structure EngineRegs where
  /-- The round index `ir`, "at least 5 bits" (R31): five here (log entry 4). -/
  ir : BitVec 5
  /-- The column parities of theta (R86). -/
  c : Vector Lane 5
  /-- The column corrections of theta (R86). -/
  d : Vector Lane 5
  deriving DecidableEq, Repr, Inhabited

/-- How the host reaches the block's channels (R53, D29): the examples the spec names, and any other binding. -/
inductive HostBinding where
  | memoryMapped
  | coprocessorPort
  | stream
  | other
  deriving DecidableEq, Repr, Inhabited

/-- The parameters a model takes as arguments and that change the result of a rule: `SEQ_GUARD` alone (R7). -/
structure Config where
  /-- `SEQ_GUARD`: true when the controller rejects an out-of-phase UPDATE or FINALIZE (R7, R118);
  false for the unguarded source, where such a command is a contract violation (R155). -/
  seqGuard : Bool
  deriving DecidableEq, Repr

namespace Config

/-- The default configuration: "Its default is `true`" (R7). -/
def standard : Config := { seqGuard := true }

/-- One less than `PERM_LATENCY`; OPEN, so it has no value here (R8, D22). -/
opaque permLatencyLessOne : Nat

/-- `PERM_LATENCY`, "a natural number ≥ 1" (R8). No rule depends on it, and the host cannot observe it. -/
def permLatency : Nat := permLatencyLessOne + 1

/-- `HOST_BINDING`; OPEN, so it has no value here, and no rule depends on it (R53, D29). -/
opaque hostBinding : HostBinding

/-- What the engine's working registers hold when they become unspecified, after a permutation and after a
reset (R31, R170, U6): a free value for each tick of the state's counter. -/
opaque freeEngine : Nat → EngineRegs

/-- The size of `block_buffer` in bytes, the maximum rate (R6, R22, C7). -/
def bufferSize : Nat := 144

/-- The number of rounds of one permutation (R6). -/
def rounds : Nat := 24

/-- The domain-separation and first padding byte (R6, R121). -/
def domainByte : Byte := 0x06

/-- The last padding byte (R6, R121). -/
def lastPadByte : Byte := 0x80

end Config

end Sys2Proof
end

