-- ==== Sys2Proof/Machine/State.lean ====
section
/-! DEFINITION. The state of one block (spec/10_state.md), plain data, with the host's pending moves and the digest
channel; the reasons a step stops; and the state right after reset (R40, R170). -/

namespace Sys2Proof.Machine

/-- Byte storage: (address, byte) pairs in one canonical form, addresses strictly rising, inside the space, and no
entry equal to what an unlisted address reads as (Machine/Ops.lean: `Memory.wf`). -/
abbrev Memory := List Host.Cell

/-- What the host can do to the block: "A model gives the host no other move" (R178). -/
inductive HostMove where
  /-- One transaction, a command word and its payload (R35, R65). -/
  | transaction (word : Word) (payload : List Byte)
  /-- The reset input is asserted between transactions (R38, R171). -/
  | reset
  /-- The reset input is asserted during this transaction, which is abandoned (R171, D26). -/
  | resetDuring (word : Word) (payload : List Byte)
  /-- The host reads STATUS (R37, R52). -/
  | readStatus
  /-- The host takes this many of the emitted bytes from the digest channel (R36, R175). -/
  | takeDigest (count : Nat)
  deriving DecidableEq, Repr

/-- One block with its channels. The constant tables `RHO` and `RC` are wired and never written (R32): they are
definitions of Machine/Permutation.lean, not fields. STATUS is the view `State.status` of Machine/Flags.lean over
`statusOk`, `statusErr` and `phase`, because STATUS.PHASE is a copy of PHASE (R27). -/
structure State where
  /-- `lanes[0..24]`, the permutation state (R20). -/
  lanes : Lanes
  /-- `rate_bytes`, 8 bits (R9, R21). -/
  rateBytes : BitVec 8
  /-- `block_buffer[0..143]` (R22), one byte per address. -/
  blockBuffer : Memory
  /-- `buffer_offset`, 8 bits (R9, R23). -/
  bufferOffset : BitVec 8
  /-- PHASE, 2 bits: UNINIT = 0, READY = 1, DONE = 2; 3 is never written (R26). -/
  phase : BitVec 2
  /-- STATUS.OK, bit 0 of STATUS (R27). -/
  statusOk : Bool
  /-- STATUS.ERR, bits 3:1 of STATUS (R27, R151). -/
  statusErr : BitVec 3
  /-- The engine's working registers, unobservable (R31). -/
  engine : EngineRegs
  /-- The model-only sticky fault mark (R34, R155). -/
  faultMark : Bool
  /-- The host's pending moves in the order the block accepts them (R55, R56): the schedule of all hosts. -/
  channel : List HostMove
  /-- The payload of the transaction being executed, not yet consumed (R65, R73). -/
  payload : List Byte
  /-- The digest output channel: bytes emitted and not yet taken by the host, in order (R36). -/
  digestOut : List Byte
  /-- The parameters of this block (R7). No step changes them. -/
  config : Config
  /-- The model's own counter for the free values of Config: it advances when the engine's registers become
  unspecified (log entry 3). -/
  freeCount : Nat
  deriving DecidableEq, Repr

/-- Why a step ends in a fault. Each carries the state the fault leaves, with the sticky mark of R34 set; no value
of the undefined behaviour is picked. Every fault is safe: a claim about a run that reaches one cannot be proved. -/
inductive Fault where
  /-- Raised by UPDATE and FINALIZE outside READY when SEQ_GUARD is false, and by any move but reset when
  PHASE holds 3 (R155, V5). Safe. -/
  | contractViolation (marked : State)
  /-- Raised by any move but reset when STATUS.ERR holds a code 4 to 7, which no rule writes (R151, V4). Safe. -/
  | reservedErrorCode (marked : State)
  /-- Raised by UPDATE and FINALIZE in READY when `rate_bytes` is none of the four rates or `buffer_offset` is not
  below it, which no rule leaves (R24, R111): the storage addressed then does not exist (R46, R155). Safe. -/
  | brokenSponge (marked : State)
  /-- Raised by any move but reset in a state whose fault mark is already set: "a run containing a faulted
  transaction … has no defined result" (R34, R179). Safe. -/
  | afterFault (marked : State)
  deriving DecidableEq, Repr

/-- Why a step is refused. -/
inductive Refusal where
  /-- Raised by exec for an instruction that has no meaning yet; no arm raises it. Safe. -/
  | notModelled (mnemonic : String)
  /-- Raised at the boundary by a transaction whose payload has not the announced number of bytes, which is "not a
  behaviour of the hardware" (R73, V6). Safe. -/
  | illFormedTransaction (announced given : Nat)
  deriving DecidableEq, Repr

/-- The engine registers in `State.reset`: the spec leaves them unspecified (R31, R40), and zero is the value the
model names (DESIGN CHOICE, unsafe: log entry 2). -/
def EngineRegs.atReset : EngineRegs :=
  { ir := 0, c := Vector.replicate 5 0, d := Vector.replicate 5 0 }

/-- The block right after reset (R40, R170): the HashState is zero, PHASE is UNINIT, STATUS is zero, the fault mark
is clear as at model launch, and both channels are empty. -/
def State.reset : State where
  lanes := Vector.replicate 25 0
  rateBytes := 0
  blockBuffer := []
  bufferOffset := 0
  phase := 0
  statusOk := false
  statusErr := 0
  engine := EngineRegs.atReset
  faultMark := false
  channel := []
  payload := []
  digestOut := []
  config := Config.standard
  freeCount := 0

end Sys2Proof.Machine
end

