-- ==== Sys2Proof/Machine/Flags.lean ====
section
/-! DEFINITION. PHASE, the error codes and the STATUS register (R26, R27, R151). -/

namespace Sys2Proof.Machine

/-- PHASE = UNINIT (R26). -/
def phaseUninit : BitVec 2 := 0

/-- PHASE = READY (R26). -/
def phaseReady : BitVec 2 := 1

/-- PHASE = DONE (R26). -/
def phaseDone : BitVec 2 := 2

/-- The PHASE value that "is never written" (R26, V5). -/
def phaseReserved : BitVec 2 := 3

/-- The causes a failing command reports (R151). -/
inductive ErrCode where
  | invalidArgument
  | sequenceError
  | illegalCommand
  deriving DecidableEq, Repr

/-- STATUS.ERR of a command that succeeded, and after reset: NONE (R151). -/
def errNone : BitVec 3 := 0

/-- The code written to STATUS.ERR (R151). -/
def ErrCode.code : ErrCode → BitVec 3
  | .invalidArgument => 1
  | .sequenceError => 2
  | .illegalCommand => 3

/-- A code 4 to 7, "reserved, never written" (R151). -/
def errReserved (code : BitVec 3) : Bool := decide (4 ≤ code.toNat)

/-- The 6-bit STATUS register: OK in bit 0, ERR in bits 3:1, the copy of PHASE in bits 5:4 (R27). -/
def State.status (s : State) : BitVec 6 := s.phase ++ s.statusErr ++ BitVec.ofBool s.statusOk

/-- The host's read of STATUS: its value, and the state it leaves, which is the same one (R27, R52). -/
def State.readStatus (s : State) : BitVec 6 × State := (s.status, s)

end Sys2Proof.Machine
end

