-- ==== Sys2Proof/Machine/Operands.lean ====
section
/-! DEFINITION. The operands of the commands: the variants and their rates (R112), the digest
length (R29), and the byte view of the lanes, `LaneByte` (R47). -/

namespace Sys2Proof.Machine

/-- The four values of `bitsize` that INIT accepts, compared exactly (R2, R67, R110). -/
def supportedBitsize (bitsize : Nat) : Bool :=
  bitsize == 224 || bitsize == 256 || bitsize == 384 || bitsize == 512

/-- `(1600 − 2·bitsize) / 8`, the rate of a variant in bytes (R112, C1). -/
def rateOf (bitsize : Nat) : Nat := (1600 - 2 * bitsize) / 8

/-- `rate_bytes` is one of the four rates, as AbsorbBlock needs (R21, R111). -/
def legalRate (rate : Nat) : Bool := rate == 144 || rate == 136 || rate == 104 || rate == 72

/-- `(200 − rate_bytes) / 2`, the digest length in bytes of the running hash (R29). -/
def digestBytes (rate : Nat) : Nat := (200 - rate) / 2

/-- `LaneByte(j)`, byte `j` of the lane array, little-endian within each lane, lanes in index order (R47).
Defined for `j` in 0..199; the index is taken mod 25 lanes so that the function is total. -/
def laneByte (lanes : Lanes) (j : Nat) : Byte :=
  (lanes[j / 8 % 25]'(Nat.mod_lt _ (by decide))).extractLsb' (8 * (j % 8)) 8

end Sys2Proof.Machine
end

