-- ==== Sys2Proof/Machine/Ops.lean ====
section
/-! DEFINITION. The named operations every command is written over: byte storage (R46), the register updates, the end of
a command by success (R152) or by error (R153, the block's only "exception"), and the checks common to every
transaction (R110, R155). -/

namespace Sys2Proof.Machine

/-- What a byte that nothing has written reads as: reset and INIT leave every buffer byte 0 (R40, R113). -/
def unlistedByte : Byte := 0

/-- `buf[k]` (R13). An address outside 0..143 names no byte; the rules never read one (R46). -/
def Memory.read : Memory → Nat → Byte
  | [], _ => unlistedByte
  | (b, v) :: rest, a => if a = b then v else Memory.read rest a

/-- The listing with one byte replaced, in canonical form: an entry that would hold what an unlisted address reads
as is left out. -/
def Memory.put : Memory → Nat → Byte → Memory
  | [], a, v => if v = unlistedByte then [] else [(a, v)]
  | (b, w) :: rest, a, v =>
    if a < b then (if v = unlistedByte then (b, w) :: rest else (a, v) :: (b, w) :: rest)
    else if a = b then (if v = unlistedByte then rest else (a, v) :: rest)
    else (b, w) :: Memory.put rest a v

/-- `buf[k] <- v` (R13). The space has the addresses 0..143 and no other (R22, R45): no rule writes elsewhere (R46),
and such a write changes nothing here. -/
def Memory.write (m : Memory) (a : Nat) (v : Byte) : Memory :=
  if a < Config.bufferSize then Memory.put m a v else m

/-- `MemRead(addr, n)`: the unsigned little-endian value of `n` bytes (R13, R46). -/
def Memory.memRead (m : Memory) (addr : Nat) : Nat → Nat
  | 0 => 0
  | n + 1 => (Memory.read m addr).toNat + 2 ^ 8 * Memory.memRead m (addr + 1) n

/-- `MemWrite(addr, n, v)`: the low `n` bytes of `v`, little-endian (R13, R46). -/
def Memory.memWrite (m : Memory) (addr : Nat) : Nat → Nat → Memory
  | 0, _ => m
  | n + 1, v => Memory.memWrite (Memory.write m addr (BitVec.ofNat 8 v)) (addr + 1) n (v / 2 ^ 8)

/-- `MemRead(8k, 8)` as the 64-bit value XORed into lane `k` (R46, R111). -/
def Memory.laneAt (m : Memory) (k : Nat) : Lane := BitVec.ofNat 64 (Memory.memRead m (8 * k) 8)

/-- The canonical form from address `low` on: addresses rise strictly, all are below the buffer's size, and no entry
holds what an unlisted address reads as. -/
def Memory.wfFrom : Nat → Memory → Bool
  | _, [] => true
  | low, (a, v) :: rest =>
    decide (low ≤ a) && decide (a < Config.bufferSize) && decide (v ≠ unlistedByte) && Memory.wfFrom (a + 1) rest

/-- The canonical form of the buffer's listing. -/
def Memory.wf (m : Memory) : Bool := Memory.wfFrom 0 m

/-- The three outcomes of a step of this block. -/
abbrev Result := Host.Outcome State Fault Refusal

/-- The sticky fault mark is set; nothing else changes (R34). -/
def State.recordFault (s : State) : State := { s with faultMark := true }

/-- The state that a fault leaves. -/
def Fault.state : Fault → State
  | .contractViolation s => s
  | .reservedErrorCode s => s
  | .brokenSponge s => s
  | .afterFault s => s

/-- `succeed`: STATUS.OK ← 1 and STATUS.ERR ← NONE after the command's body has made its changes; STATUS.PHASE shows
PHASE (R152). The payload has been consumed (R73). -/
def State.completed (s : State) : State := { s with statusOk := true, statusErr := errNone, payload := [] }

/-- `raise Error(code)`: STATUS.OK ← 0, STATUS.ERR ← code, the announced payload consumed and discarded, and no other
state changes (R153). -/
def State.failed (code : ErrCode) (s : State) : State :=
  { s with statusOk := false, statusErr := code.code, payload := [] }

/-- End a command that succeeded (R152). -/
def succeed (s : State) : Result := .next s.completed

/-- End a failing command: the one shared operation that reports an error (R150, R153, R158). -/
def raiseError (code : ErrCode) (s : State) : Result := .next (s.failed code)

/-- PHASE is written: READY by a successful INIT and DONE by a successful FINALIZE (R26). -/
def State.enterPhase (p : BitVec 2) (s : State) : State := { s with phase := p }

/-- The HashState is zeroed: every lane, every buffer byte, `buffer_offset` and `rate_bytes` (R28, R125). -/
def State.zeroHashState (s : State) : State :=
  { s with lanes := Vector.replicate 25 0, rateBytes := 0, blockBuffer := [], bufferOffset := 0 }

/-- The engine's working registers become unspecified (R31, U6): a free value, and the counter moves on. -/
def State.clobberEngine (s : State) : State :=
  { s with engine := Config.freeEngine s.freeCount, freeCount := s.freeCount + 1 }

/-- `buf[off] <- b; off <- off + 1` (R115). -/
def State.storeByte (b : Byte) (s : State) : State :=
  { s with blockBuffer := s.blockBuffer.write s.bufferOffset.toNat b, bufferOffset := s.bufferOffset + 1 }

/-- `emit` of a list of bytes, in order, on the digest channel (R13, R36). -/
def State.emit (bytes : List Byte) (s : State) : State := { s with digestOut := s.digestOut ++ bytes }

/-- What the rules never leave, and a model that meets it treats as a fault: a fault mark already set (R34, R179),
PHASE = 3 (R155, V5), a reserved code in STATUS.ERR (V4). -/
def impossibleState (s : State) : Option Fault :=
  if s.faultMark = true then some (.afterFault s)
  else if s.phase = phaseReserved then some (.contractViolation s.recordFault)
  else if errReserved s.statusErr = true then some (.reservedErrorCode s.recordFault)
  else none

/-- Run the rest of a transaction in a state that the rules can leave. -/
def whenPossible (s : State) (run : State → Result) : Result :=
  match impossibleState s with
  | some f => .fault f
  | none => run s

/-- The boundary of a transaction: one whose payload has not the announced length is refused and not executed (R73);
otherwise the transaction runs. -/
def transact (announced : Nat) (s : State) (run : State → Result) : Result :=
  if s.payload.length = announced then whenPossible s run
  else .refused (.illFormedTransaction announced s.payload.length)

/-- In READY the rate is one of the four and the offset is below it (R21, R24). -/
def State.spongeOk (s : State) : Bool :=
  legalRate s.rateBytes.toNat && decide (s.bufferOffset.toNat < s.rateBytes.toNat)

/-- The phase check of UPDATE and FINALIZE: outside READY, SEQUENCE_ERROR when SEQ_GUARD is true (R110, R118) and a
contract violation when it is false (R155); in READY the body runs. -/
def whenReady (s : State) (body : State → Result) : Result :=
  if s.phase = phaseReady then
    if s.spongeOk = true then body s else .fault (.brokenSponge s.recordFault)
  else if s.config.seqGuard = true then raiseError .sequenceError s
  else .fault (.contractViolation s.recordFault)

end Sys2Proof.Machine
end

