-- ==== Sys2Proof/Machine/Channel.lean ====
section
/-! DEFINITION. The host's side of the block (R35 to R38, R170, R171, R178): what the next step does, the reset input, and
the placing of a transaction at the head of the command channel. -/

namespace Sys2Proof.Machine

/-- Asserting the reset input (R170): the HashState is zero, PHASE is UNINIT, STATUS is zero, and the engine's registers
become unspecified. The fault mark, the parameters and the channels are no part of R170's list and stay. A payload in
transit belongs to the abandoned transaction and is gone (R171). -/
def State.assertReset (s : State) : State :=
  { s.zeroHashState with phase := phaseUninit, statusOk := false, statusErr := errNone, payload := [] }.clobberEngine

/-- The block accepts a transaction: it leaves the channel and its payload is delivered (R35, R73). -/
def State.accept (payload : List Byte) (rest : List HostMove) (s : State) : State :=
  { s with channel := rest, payload := payload }

/-- A host move other than a transaction leaves the channel. -/
def State.moveTaken (rest : List HostMove) (s : State) : State := { s with channel := rest }

/-- The host takes the first bytes of the digest channel (R36, R175). -/
def State.takeDigest (count : Nat) (s : State) : State := { s with digestOut := s.digestOut.drop count }

/-- What the next step does: it executes a command of the table, a word that is no command, or ends at once with the
outcome of a host move. -/
inductive NextMove where
  | command (i : Instr) (s : State)
  | illegal (announced : Nat) (s : State)
  | done (r : Result)

/-- The next move of the host, in the order of the channel (R55, R56). With nothing pending the block "holds its state
and does nothing" (R165). Reading STATUS changes nothing (R52). A reset during a transaction is the same as a reset
just before it, and the transaction is abandoned (R171). -/
def nextMove (s : State) : NextMove :=
  match s.channel with
  | [] => .done (.next s)
  | .transaction word payload :: rest =>
    match decode word with
    | .ok i => .command i (s.accept payload rest)
    | .error _ => .illegal (announced word) (s.accept payload rest)
  | .reset :: rest => .done (.next (s.moveTaken rest).assertReset)
  | .resetDuring _ _ :: rest => .done (.next (s.moveTaken rest).assertReset)
  | .readStatus :: rest => .done (whenPossible (s.moveTaken rest) fun s => .next s.readStatus.2)
  | .takeDigest count :: rest => .done (whenPossible (s.moveTaken rest) fun s => .next (s.takeDigest count))

/-- A transaction placed at the head of the channel, so that the block accepts it next. -/
def State.issue (word : Word) (payload : List Byte) (s : State) : State :=
  { s with channel := .transaction word payload :: s.channel }

/-- A word of the opcode table issued with a payload of the announced number of zero bytes (R73). -/
def State.issueTableWord (nbits w : Nat) (s : State) : State :=
  s.issue (tableWord nbits w) (List.replicate (announced (tableWord nbits w)) 0)

end Sys2Proof.Machine
end

