-- ==== Sys2Proof/Machine/Permutation.lean ====
section
/-! DEFINITION. The permutation engine (spec/40_permutation.md): the five step mappings, the two constant tables with
their generating rules, the round and Keccak-f[1600]. -/

namespace Sys2Proof.Machine

/-- `rotl(v, n)` for `0 ≤ n ≤ 63`: `((v << n) ∨ (v >> (64 − n))) mod 2^64` (R12). -/
def rotl (v : Lane) (n : Nat) : Lane := (v <<< n) ||| (v >>> (64 - n))

/-- `A[x,y] = lanes[x + 5y]`, coordinates taken mod 5 (R11). -/
def lane (a : Lanes) (x y : Nat) : Lane :=
  a[x % 5 + 5 * (y % 5)]'(by omega)

/-- The lane array whose `A[x,y]` is `f x y` (R11). -/
def lanesOf (f : Nat → Nat → Lane) : Lanes :=
  Vector.ofFn fun i => f (i.val % 5) (i.val / 5)

/-- An entry of a five-entry theta temporary, index taken mod 5 (R86). -/
def column (t : Vector Lane 5) (x : Nat) : Lane := t[x % 5]'(Nat.mod_lt _ (by decide))

/-- `C[x]`, the parity of each column (R86). -/
def thetaC (a : Lanes) : Vector Lane 5 :=
  Vector.ofFn fun x => lane a x.val 0 ^^^ lane a x.val 1 ^^^ lane a x.val 2 ^^^ lane a x.val 3 ^^^ lane a x.val 4

/-- `D[x] = C[x−1] ⊕ rotl(C[x+1], 1)`; `(x − 1) mod 5` is `(x + 4) mod 5` (R10, R86). -/
def thetaD (c : Vector Lane 5) : Vector Lane 5 :=
  Vector.ofFn fun x => column c (x.val + 4) ^^^ rotl (column c (x.val + 1)) 1

/-- theta: `A'[x,y] = A[x,y] ⊕ D[x]` (R86). -/
def theta (a : Lanes) : Lanes :=
  let d := thetaD (thetaC a)
  lanesOf fun x y => lane a x y ^^^ column d x

/-- `RHO[0..24]`, the rotation offsets by lane index `x + 5y` (R32, R88). -/
def rhoTable : Vector Nat 25 :=
  #v[0, 1, 62, 28, 27, 36, 44, 6, 55, 20, 3, 10, 43, 25, 39, 41, 45, 15, 21, 8, 18, 2, 61, 56, 14]

/-- rho: `lanes'[i] = rotl(lanes[i], RHO[i])` (R87). -/
def rho (a : Lanes) : Lanes := Vector.ofFn fun i => rotl a[i] rhoTable[i]

/-- pi: `A'[x,y] = A[(x + 3y) mod 5, x]` (R89). -/
def pi (a : Lanes) : Lanes := lanesOf fun x y => lane a (x + 3 * y) x

/-- chi: `A'[x,y] = A[x,y] ⊕ (¬A[x+1,y] ∧ A[x+2,y])`, every output from the row's input lanes (R11, R90). -/
def chi (a : Lanes) : Lanes :=
  lanesOf fun x y => lane a x y ^^^ (~~~ lane a (x + 1) y &&& lane a (x + 2) y)

/-- The twelve rows of R92's table: row `k` prints `RC[k]` and, beside it, `RC[k + 12]`. -/
def rcRows : Vector (Lane × Lane) 12 :=
  #v[(0x0000000000000001, 0x000000008000808B),
     (0x0000000000008082, 0x800000000000008B),
     (0x800000000000808A, 0x8000000000008089),
     (0x8000000080008000, 0x8000000000008003),
     (0x000000000000808B, 0x8000000000008002),
     (0x0000000080000001, 0x8000000000000080),
     (0x8000000080008081, 0x000000000000800A),
     (0x8000000000008009, 0x800000008000000A),
     (0x000000000000008A, 0x8000000080008081),
     (0x0000000000000088, 0x8000000000008080),
     (0x0000000080008009, 0x0000000080000001),
     (0x000000008000000A, 0x8000000080008008)]

/-- `RC[0..23]`, the round constants (R32, R92): the left column of the rows, then the right one. -/
def rcTable : Vector Lane 24 := rcRows.map Prod.fst ++ rcRows.map Prod.snd

/-- iota: only lane 0 changes, by the round's constant (R91). -/
def iota (a : Lanes) (ir : Fin 24) : Lanes := a.set 0 (a[0] ^^^ rcTable[ir])

/-- One round: theta, rho, pi, chi, iota, each on the whole output of the one before (R93). -/
def keccakRound (a : Lanes) (ir : Fin 24) : Lanes := iota (chi (pi (rho (theta a)))) ir

/-- Keccak-f[1600]: the 24 rounds with `RC[0]` to `RC[23]` in that order (R85, R94). Irreducible, so that no
unification of two states starts to run it; the kernel evaluates it all the same. -/
@[irreducible] def keccakF (a : Lanes) : Lanes := (List.finRange 24).foldl keccakRound a

/-- The loop-driven form of the engine: one round in one cycle, with the round index and the theta temporaries in
the working registers (R31, R95). The round index is in 0..23 during a permutation (R94). -/
def engineCycle (p : EngineRegs × Lanes) : EngineRegs × Lanes :=
  let c := thetaC p.2
  ({ ir := p.1.ir + 1, c := c, d := thetaD c }, keccakRound p.2 ⟨p.1.ir.toNat % 24, Nat.mod_lt _ (by decide)⟩)

/-- `n` cycles of the loop-driven form. -/
def engineCycles : Nat → EngineRegs × Lanes → EngineRegs × Lanes
  | 0, p => p
  | n + 1, p => engineCycles n (engineCycle p)

/-- The walk of the triangular-number lane-tracking rule from step `t` on: lane index and offset of each step (R88). -/
def rhoWalk : Nat → Nat → Nat → Nat → List (Nat × Nat)
  | 0, _, _, _ => []
  | n + 1, t, x, y => (x + 5 * y, (t + 1) * (t + 2) / 2 % 64) :: rhoWalk n (t + 1) y ((2 * x + 3 * y) % 5)

/-- The rotation offset that the generating rule of R88 gives to a lane; lane 0 is not on the walk and gets 0. -/
def rhoGenerated (i : Nat) : Nat := ((rhoWalk 24 0 1 0).lookup i).getD 0

/-- One step of the 8-bit LFSR of R92 on `R[0] .. R[7]`. -/
def lfsrStep (r : List Bool) : List Bool :=
  let r8 := r.getD 7 false
  let shifted := false :: r
  (((shifted.modify 0 (xor r8)).modify 4 (xor r8)).modify 5 (xor r8)).modify 6 (xor r8) |>.take 8

/-- `n` steps of the LFSR. -/
def lfsrRun : Nat → List Bool → List Bool
  | 0, r => r
  | n + 1, r => lfsrRun n (lfsrStep r)

/-- `rc(t)` (R92). -/
def rcBit (t : Nat) : Bool :=
  if t % 255 = 0 then true
  else (lfsrRun (t % 255) [true, false, false, false, false, false, false, false]).getD 0 false

/-- The round constant that the generating rule of R92 gives: bit `2^j − 1` is `rc(j + 7·ir)`, every other bit is 0. -/
def rcGenerated (ir : Nat) : Lane :=
  (List.range 7).foldl (fun acc j => acc ||| (BitVec.ofNat 64 (rcBit (j + 7 * ir)).toNat <<< (2 ^ j - 1))) 0

end Sys2Proof.Machine
end

