-- ==== Sys2Proof/Machine/Sponge.lean ====
section
/-! DEFINITION. The sponge controller's shared steps: absorption (R111, R115), padding (R121)
and digest extraction (R124). -/

namespace Sys2Proof.Machine

/-- The first `rate/8` lanes XORed with the buffer's little-endian lanes; the capacity lanes are not XORed (R111). -/
def xorBlock (lanes : Lanes) (buf : Memory) (rate : Nat) : Lanes :=
  Vector.ofFn fun k => if k.val < rate / 8 then lanes[k] ^^^ buf.laneAt k.val else lanes[k]

/-- `AbsorbBlock()`: XOR the full buffer into the rate lanes, run the permutation, empty the buffer. The buffer's
bytes stay in place (R25, R111, D24). The permutation leaves the engine's registers unspecified (R31). -/
def State.absorbBlock (s : State) : State :=
  { s with
    lanes := keccakF (xorBlock s.lanes s.blockBuffer s.rateBytes.toNat)
    bufferOffset := 0 }.clobberEngine

/-- One turn of UPDATE's loop: store a byte, and flush at once when the buffer is full (R115). -/
def State.absorbByte (s : State) (b : Byte) : State :=
  let t := s.storeByte b
  if t.bufferOffset = t.rateBytes then t.absorbBlock else t

/-- UPDATE's loop: the bytes one at a time, byte 0 first (R55, R115). -/
def State.absorbBytes (s : State) (data : List Byte) : State := data.foldl State.absorbByte s

/-- `for i in off .. rate−1: buf[i] <- 0` (R121). -/
def zeroFill (buf : Memory) (off rate : Nat) : Memory :=
  (List.range' off (rate - off)).foldl (fun m i => m.write i 0) buf

/-- `buf[i] <- buf[i] ∨ bits` (R121). -/
def orByte (buf : Memory) (i : Nat) (bits : Byte) : Memory := buf.write i (buf.read i ||| bits)

/-- The padded block: zero-fill, then 0x06 at the offset, then 0x80 at the last byte of the block. No special case
where both land in one byte (R121, R122). -/
def padBlock (buf : Memory) (off rate : Nat) : Memory :=
  orByte (orByte (zeroFill buf off rate) off Config.domainByte) (rate - 1) Config.lastPadByte

/-- `Pad()` (R121). -/
def State.pad (s : State) : State :=
  { s with blockBuffer := padBlock s.blockBuffer s.bufferOffset.toNat s.rateBytes.toNat }

/-- The first bytes of the lane array, in increasing index (R124). -/
def laneBytes (lanes : Lanes) (count : Nat) : List Byte := (List.range count).map (laneByte lanes)

/-- The digest that the running hash emits once its last block is absorbed (R29, R124). -/
def State.digest (s : State) : List Byte := laneBytes s.lanes (digestBytes s.rateBytes.toNat)

end Sys2Proof.Machine
end

