-- ==== Sys2Proof/Machine/Commands.lean ====
section
/-! DEFINITION. The meanings of the three commands INIT, UPDATE and FINALIZE (spec/41_sponge_commands.md), and of a word
that is no command (R69 to R71). Each makes the checks of R110 in the order of R156. -/

namespace Sys2Proof.Machine

/-- INIT's body: everything zero, then the rate of the variant and PHASE ← READY (R113). -/
def initBody (bitsize : Nat) (s : State) : State :=
  { s.zeroHashState with rateBytes := BitVec.ofNat 8 (rateOf bitsize) }.enterPhase phaseReady

/-- FINALIZE's body: pad, absorb, emit the digest, scrub, PHASE ← DONE (R120). -/
def finalizeBody (s : State) : State :=
  let absorbed := s.pad.absorbBlock
  ((absorbed.emit absorbed.digest).zeroHashState).enterPhase phaseDone

/-- INIT (R113): accepted in every phase (R130). -/
def execInit (hp : Bool) (bitsize : Nat) (s : State) : Result :=
  transact (Instr.init hp bitsize).announced s fun s =>
    if hp = false then raiseError .invalidArgument s
    else if supportedBitsize bitsize = false then raiseError .invalidArgument s
    else succeed (initBody bitsize s)

/-- UPDATE (R115 to R118). -/
def execUpdate (hp bp : Bool) (length : Nat) (s : State) : Result :=
  transact (Instr.update hp bp length).announced s fun s =>
    if hp = false then raiseError .invalidArgument s
    else if bp = false ∧ 0 < length then raiseError .invalidArgument s
    else whenReady s fun s => succeed (s.absorbBytes s.payload)

/-- FINALIZE (R120 to R128). -/
def execFinalize (hp bp : Bool) (s : State) : Result :=
  transact (Instr.finalize hp bp).announced s fun s =>
    if hp = false then raiseError .invalidArgument s
    else if bp = false then raiseError .invalidArgument s
    else whenReady s fun s => succeed (finalizeBody s)

/-- A transaction whose word is no command: ILLEGAL_COMMAND and nothing else, in every phase, its announced payload
consumed (R69 to R71, R73, R74, R110). Every reason of the decoder has this one effect. -/
def execIllegal (announced : Nat) (s : State) : Result :=
  transact announced s fun s => raiseError .illegalCommand s

end Sys2Proof.Machine
end

