-- ==== Sys2Proof/Machine/Dispatch.lean ====
section
/-! DEFINITION. One arm per command of the opcode table (R68, R110). -/

namespace Sys2Proof.Machine

def exec (i : Instr) (s : State) : Host.Outcome State Fault Refusal :=
  match i with
  -- 41_sponge_commands.md section 3
  | .init hp bitsize => Sys2Proof.Machine.execInit hp bitsize s
  -- 41_sponge_commands.md section 4
  | .update hp bp length => Sys2Proof.Machine.execUpdate hp bp length s
  -- 41_sponge_commands.md section 5
  | .finalize hp bp => Sys2Proof.Machine.execFinalize hp bp s

end Sys2Proof.Machine
end

