-- ==== Sys2Proof/Machine/Step.lean ====
section
/-! DEFINITION. One step of the block: one host move, a transaction being one atomic step (R35, R51, D1). -/

namespace Sys2Proof.Machine

/-- One step (R110, R165, R178). -/
def step (s : State) : Host.Outcome State Fault Refusal :=
  match nextMove s with
  | .command i t => exec i t
  | .illegal n t => execIllegal n t
  | .done r => r

/-- The state in which the next step executes the opcode-table word `w`, its payload being zero bytes. -/
def State.withFetchWord (s : State) (nbits w : Nat) : State := s.issueTableWord nbits w

end Sys2Proof.Machine
end

