-- ==== Sys2Proof/Machine/Assembler.lean ====
section
/-! DEFINITION. The assembler syntax and the pseudo-instructions of R75 and R76: a source text, given as its list of
characters, and the transactions it stands for. A text the syntax does not allow gives none. -/

namespace Sys2Proof.Machine.Asm

/-- A command word and its payload (R65). -/
abbrev Transaction := Word × List Byte

/-- `<data>` as the payload of one UPDATE, `update <length>, <data>` (R75). -/
def updateWith (hp : Bool) (length : Nat) (data : List Byte) : Option Transaction :=
  if fitsArg length = true ∧ data.length = length then some (encode (.update hp true length), data) else none

/-- `update.nb <length>` (R75). -/
def updateNoBuffer (hp : Bool) (length : Nat) : Option Transaction :=
  if fitsArg length = true then some (encode (.update hp false length), []) else none

/-- `init <bitsize>` (R75). -/
def initWith (hp : Bool) (bitsize : Nat) : Option Transaction :=
  if fitsArg bitsize = true then some (encode (.init hp bitsize), []) else none

/-- `finalize` and `finalize.nb` (R75). -/
def finalizeWith (hp bp : Bool) : Transaction := (encode (.finalize hp bp), [])

/-- The UPDATE commands of `update.long`, each of at most 65535 bytes; the last is left out when it would be empty
and another stands before it (R76). -/
def updateChunks : Nat → List Byte → List Transaction
  | 0, _ => []
  | n + 1, data =>
    let chunk := data.take 65535
    (encode (.update true true chunk.length), chunk) ::
      (if data.length ≤ 65535 then [] else updateChunks n (data.drop 65535))

/-- `update.long <data>` (R76). -/
def updateLong (data : List Byte) : List Transaction := updateChunks (data.length / 65535 + 1) data

/-- `sha3 <bitsize>, <data>`: init, update.long, finalize (R76). -/
def sha3Program (bitsize : Nat) (data : List Byte) : Option (List Transaction) :=
  (initWith true bitsize).map fun t => t :: updateLong data ++ [finalizeWith true true]

/-- The host's moves that issue these transactions in order. -/
def moves (program : List Transaction) : List HostMove := program.map fun t => .transaction t.1 t.2

def quoteMark : Char := Char.ofNat 34
def openBrace : Char := Char.ofNat 123
def closeBrace : Char := Char.ofNat 125

def isBlank (ch : Char) : Bool := ch == ' ' || ch == '\t' || ch == '\r'

/-- The text without blanks at its ends. -/
def trim (text : List Char) : List Char :=
  ((text.dropWhile isBlank).reverse.dropWhile isBlank).reverse

/-- The value of a digit, in hexadecimal. -/
def digitValue (ch : Char) : Option Nat :=
  if '0' ≤ ch ∧ ch ≤ '9' then some (ch.toNat - '0'.toNat)
  else if 'a' ≤ ch ∧ ch ≤ 'f' then some (ch.toNat - 'a'.toNat + 10)
  else if 'A' ≤ ch ∧ ch ≤ 'F' then some (ch.toNat - 'A'.toNat + 10)
  else none

/-- A row of digits in a base, the value so far first. -/
def digits (base : Nat) : Nat → List Char → Option Nat
  | acc, [] => some acc
  | acc, ch :: rest =>
    match digitValue ch with
    | some v => if v < base then digits base (base * acc + v) rest else none
    | none => none

/-- A nonempty row of digits. -/
def number (base : Nat) (text : List Char) : Option Nat :=
  if text = [] then none else digits base 0 text

/-- A decimal or `0x` hexadecimal number (R75). -/
def parseNumber (text : List Char) : Option Nat :=
  match text with
  | '0' :: 'x' :: rest => number 16 rest
  | _ => number 10 text

/-- A hexadecimal number, with or without `0x` before it (R75). -/
def parseHex (text : List Char) : Option Nat :=
  match text with
  | '0' :: 'x' :: rest => number 16 rest
  | _ => number 16 text

/-- A number of at most `bits` bits. -/
def bounded (bits : Nat) (v : Option Nat) : Option Nat := v.bind fun n => if n < 2 ^ bits then some n else none

/-- The text split at every separator. -/
def splitAll (sep : Char) : List Char → List (List Char)
  | [] => [[]]
  | ch :: rest =>
    if ch = sep then [] :: splitAll sep rest
    else match splitAll sep rest with
      | part :: parts => (ch :: part) :: parts
      | [] => [[ch]]

/-- The text before the first separator, and the text after it where there is one. -/
def splitFirst (sep : Char) (text : List Char) : List Char × Option (List Char) :=
  match text.dropWhile (· != sep) with
  | [] => (text, none)
  | _ :: rest => (text.takeWhile (· != sep), some rest)

/-- The text inside a pair of closing characters, where the text ends with the second one. -/
def inside (close : Char) (text : List Char) : Option (List Char) :=
  match text.reverse with
  | last :: rest => if last = close then some rest.reverse else none
  | [] => none

/-- The arguments in round brackets after a word, or none where the text does not begin with it. -/
def call (name : List Char) (text : List Char) : Option (List Char) :=
  if name.isPrefixOf text = true then
    match (text.drop name.length).dropWhile isBlank with
    | '(' :: rest => inside ')' rest
    | _ => none
  else none

/-- The bytes of a quoted ASCII string, in string order, with no terminator (R75). -/
def asciiBytes (text : List Char) : Option (List Byte) :=
  text.mapM fun ch => if ch.toNat < 128 ∧ ch ≠ quoteMark then some (BitVec.ofNat 8 ch.toNat) else none

/-- A list of bytes in hexadecimal, separated by commas (R75). -/
def byteList (text : List Char) : Option (List Byte) :=
  if trim text = [] then some []
  else (splitAll ',' text).mapM fun part => (bounded 8 (parseHex (trim part))).map (BitVec.ofNat 8)

/-- `<data>`: a quoted string, a braced list of bytes, `zeros(n)` or `repeat(c, n)` (R75). That the count `n` and the byte
`c` are decimal or `0x` numbers, and that `n` has no bound, is the model's choice (DESIGN CHOICE, log entry 15). -/
def parseData (source : List Char) : Option (List Byte) :=
  let text := trim source
  match text with
  | [] => none
  | ch :: rest =>
    if ch = quoteMark then (inside quoteMark rest).bind asciiBytes
    else if ch = openBrace then (inside closeBrace rest).bind byteList
    else match call "zeros".toList text with
      | some arg => (parseNumber (trim arg)).map fun n => List.replicate n 0
      | none =>
        match (call "repeat".toList text).map (splitFirst ',') with
        | some (first, some second) =>
          (bounded 8 (parseNumber (trim first))).bind fun v =>
            (parseNumber (trim second)).map fun n => List.replicate n (BitVec.ofNat 8 v)
        | _ => none

/-- `<number>, <data>`. -/
def numberAndData (text : List Char) : Option (Nat × List Byte) :=
  match splitFirst ',' text with
  | (first, some second) => (parseNumber (trim first)).bind fun n => (parseData second).map fun d => (n, d)
  | _ => none

/-- `.word <hex>` with the data that may follow (R75). -/
def wordLine (text : List Char) : Option Transaction :=
  match splitFirst ',' text with
  | (first, none) => (bounded 32 (parseHex (trim first))).map fun w => (BitVec.ofNat 32 w, [])
  | (first, some second) =>
    (bounded 32 (parseHex (trim first))).bind fun w => (parseData second).map fun d => (BitVec.ofNat 32 w, d)

/-- The HP and BP bits of the suffixes after a mnemonic: `.nh` before `.nb` (R75). -/
def suffixes (parts : List (List Char)) : Option (Bool × Bool) :=
  if parts = [] then some (true, true)
  else if parts = ["nh".toList] then some (false, true)
  else if parts = ["nb".toList] then some (true, false)
  else if parts = ["nh".toList, "nb".toList] then some (false, false)
  else none

/-- The transactions of a mnemonic, split at its dots and in lower case, with its arguments (R75, R76). That the suffix
`.nh` is rejected on the pseudo-instructions (`sha3.nh`, `update.long.nh`, `update.nh.long`) is the model's choice: R75
gives it to "any mnemonic" and R76 says nothing of it (DESIGN CHOICE, log entry 15). -/
def lineOf (mnemonic : List (List Char)) (args : List Char) : Option (List Transaction) :=
  match mnemonic with
  | [] => none
  | base :: suffix =>
    if base = [] ∧ suffix = ["word".toList] then (wordLine args).map fun t => [t]
    else if base = "update".toList ∧ suffix = ["long".toList] then (parseData args).map updateLong
    else if base = "sha3".toList ∧ suffix = [] then (numberAndData args).bind fun p => sha3Program p.1 p.2
    else match suffixes suffix with
      | none => none
      | some (hp, bp) =>
        if base = "init".toList then
          if bp = true then ((parseNumber args).bind (initWith hp)).map fun t => [t] else none
        else if base = "update".toList then
          if bp = true then ((numberAndData args).bind fun p => updateWith hp p.1 p.2).map fun t => [t]
          else ((parseNumber args).bind (updateNoBuffer hp)).map fun t => [t]
        else if base = "finalize".toList then
          if args = [] then some [finalizeWith hp bp] else none
        else none

/-- The line without its comment, which a `;` outside a quoted string starts (R75). -/
def dropComment : Bool → List Char → List Char
  | _, [] => []
  | quoted, ch :: rest =>
    if ch = ';' ∧ quoted = false then []
    else ch :: dropComment (if ch = quoteMark then !quoted else quoted) rest

/-- One source line: none where the syntax does not allow it, no transaction for a blank one (R75). -/
def assembleLine (line : List Char) : Option (List Transaction) :=
  let text := trim (dropComment false line)
  if text = [] then some []
  else
    let name := text.takeWhile fun ch => !isBlank ch
    lineOf (splitAll '.' (name.map Char.toLower)) (trim (text.drop name.length))

/-- A source text, "One command per line" (R75). -/
def assemble (source : List Char) : Option (List Transaction) :=
  ((splitAll '\n' source).mapM assembleLine).map List.flatten

end Sys2Proof.Machine.Asm
end

