-- ==== Sys2Proof/Machine/Sha3.lean ====
section
/-! DEFINITION. The digest function in the closed form of R132, written on byte lists and apart from the commands, so that
the commands can be compared with it. -/

namespace Sys2Proof.Machine

/-- The padded length `L = r·(⌊|M| / r⌋ + 1)`, always greater than `|M|` (R132). -/
def paddedLength (r len : Nat) : Nat := r * (len / r + 1)

/-- `P`: the message, zeros up to `L`, then 0x06 at `|M|` and 0x80 at `L − 1` (R132). -/
def paddedMessage (r : Nat) (m : List Byte) : List Byte :=
  let filled := m ++ List.replicate (paddedLength r m.length - m.length) 0
  (filled.modify m.length (· ||| 0x06)).modify (paddedLength r m.length - 1) (· ||| 0x80)

/-- `Σ_{m=0}^{7} B[8k+m] · 2^(8m)` for the bytes from `8k` on (R132). -/
def littleEndian (bytes : List Byte) : Nat := bytes.foldr (fun b acc => b.toNat + 256 * acc) 0

/-- One block: XOR its lanes into the first `r/8` lanes of `S`, then the permutation (R132). -/
def absorbListBlock (r : Nat) (s : Lanes) (block : List Byte) : Lanes :=
  keccakF (Vector.ofFn fun k =>
    if k.val < r / 8 then s[k] ^^^ BitVec.ofNat 64 (littleEndian ((block.drop (8 * k.val)).take 8)) else s[k])

/-- The first `n` blocks of `r` bytes, in order (R132). -/
def absorbListBlocks (r : Nat) : Nat → Lanes → List Byte → Lanes
  | 0, s, _ => s
  | n + 1, s, p => absorbListBlocks r n (absorbListBlock r s (p.take r)) (p.drop r)

/-- `SHA3(bitsize, M)` (R132). -/
def sha3 (bitsize : Nat) (m : List Byte) : List Byte :=
  let r := rateOf bitsize
  laneBytes (absorbListBlocks r (m.length / r + 1) (Vector.replicate 25 0) (paddedMessage r m)) (bitsize / 8)

end Sys2Proof.Machine
end

