-- ==== Sys2Proof/Safety.lean ====
section
/-! DEFINITION. The terms claims use: the observation of a run and its good end (R179), and the invariant of the states
that the block's rules leave between transactions (R21 to R28). -/

namespace Sys2Proof.Machine

/-- `k` steps, stopping at the first fault or refusal. -/
def steps : Nat → State → Result
  | 0, s => .next s
  | k + 1, s =>
    match step s with
    | .next t => steps k t
    | .fault f => .fault f
    | .refused r => .refused r

/-- One entry of a run's observation: STATUS after a transaction and the bytes it emitted (R179). -/
structure Observation where
  status : BitVec 6
  emitted : List Byte
  deriving DecidableEq, Repr

/-- The next host move is a transaction. -/
def State.transactionNext (s : State) : Bool :=
  match s.channel with
  | .transaction _ _ :: _ => true
  | _ => false

/-- What the host observes of a transaction that led from `s` to `t` (R36, R179). -/
def observation (s t : State) : Observation :=
  { status := t.status, emitted := t.digestOut.drop s.digestOut.length }

/-- The state after `k` steps and the run's observation, one pair per transaction (R179); none when a step faults or
is refused, since such a run "has no defined result". -/
def observe : Nat → State → Option (State × List Observation)
  | 0, s => some (s, [])
  | k + 1, s =>
    match step s with
    | .next t =>
      match observe k t with
      | some (u, rest) => some (u, if s.transactionNext then observation s t :: rest else rest)
      | none => none
    | _ => none

/-- A run ends well in this state: no host move is pending and no fault mark is set (R179). -/
def EndsWell (s : State) : Prop := s.channel = [] ∧ s.faultMark = false

/-- The HashState is zero: lanes, rate, buffer and offset (R28, R125, R170). -/
def HashStateZero (s : State) : Prop :=
  s.lanes = Vector.replicate 25 0 ∧ s.rateBytes = 0 ∧ s.blockBuffer = [] ∧ s.bufferOffset = 0

/-- No fault is recorded, and PHASE and STATUS.ERR hold values that the rules write (R26, R34, R151). -/
structure Possible (s : State) : Prop where
  unmarked : s.faultMark = false
  phaseLegal : s.phase ≠ phaseReserved
  errLegal : errReserved s.statusErr = false

/-- Two states that differ in stale buffer bytes alone, those at or above `buffer_offset` (R25, U5). -/
structure AgreeExceptStale (s t : State) : Prop where
  leftWf : s.blockBuffer.wf = true
  rightWf : t.blockBuffer.wf = true
  rest : t = { s with blockBuffer := t.blockBuffer }
  valid : ∀ a, a < s.bufferOffset.toNat → t.blockBuffer.read a = s.blockBuffer.read a

/-- What holds between transactions. -/
structure BlockInv (s : State) : Prop where
  /-- The buffer's listing is canonical, so every listed address is one of 0..143 (R22). -/
  bufferWf : s.blockBuffer.wf = true
  /-- PHASE is UNINIT, READY or DONE: "The value 3 is never written" (R26). -/
  phaseLegal : s.phase ≠ phaseReserved
  /-- Codes 4 to 7 are never written (R151). -/
  errLegal : errReserved s.statusErr = false
  /-- ERR is 0 when OK = 1 (R27). -/
  okNoError : s.statusOk = true → s.statusErr = errNone
  /-- STATUS.OK is 1 only after a command has succeeded, which leaves READY or DONE (R26, R27). -/
  okPhase : s.statusOk = true → s.phase ≠ phaseUninit
  /-- In READY the rate is one of the four and the offset is below it (R21, R24). -/
  readySponge : s.phase = phaseReady → s.spongeOk = true
  /-- In READY the buffer above the rate is never written, and INIT left it zero (R22, R113). -/
  readyTail : s.phase = phaseReady → ∀ a, s.rateBytes.toNat ≤ a → s.blockBuffer.read a = 0
  /-- In UNINIT and DONE the HashState is zero (R21, R24, R125, R170). -/
  idleZero : s.phase ≠ phaseReady → HashStateZero s
  /-- No payload is left in transit between transactions (R51, R73). -/
  payloadConsumed : s.payload = []

end Sys2Proof.Machine
end

