-- ==== Sys2Proof/Certificates/Slice0/Obligations.lean ====
section
/-! DEFINITION. The statements for the provers. Each docstring names the rule of spec/ that the statement formalises. -/

open Sys2Proof Sys2Proof.Machine

/-! ### The command word (spec/30_encoding.md) -/

/-- R66, R68, R74: no bit of a well-formed command is dropped by encoding and decoding it. -/
def Obligations.DecodeOfEncodeIsTheCommand : Prop :=
  ∀ i : Instr, i.wellFormed = true → decode (encode i) = .ok i

/-- R66, R68, R74: a word that decodes is the word its command encodes to, so each command has one word. -/
def Obligations.EncodeOfDecodeIsTheWord : Prop :=
  ∀ (w : Word) (i : Instr), decode w = .ok i → i.wellFormed = true ∧ encode i = w

/-- R68: "A word selects a command when `(word ∧ mask) = match`", with the table's masks and matches. -/
def Obligations.DecodeSelectsByMaskAndMatch : Prop :=
  ∀ w : Word,
    ((∃ hp bitsize, decode w = .ok (.init hp bitsize)) ↔ w &&& 0x0000FFEF = 0x00000001) ∧
    ((∃ hp bp length, decode w = .ok (.update hp bp length)) ↔ w &&& 0x0000FFCF = 0x00000002) ∧
    ((∃ hp bp, decode w = .ok (.finalize hp bp)) ↔ w &&& 0xFFFFFFCF = 0x00000003)

/-- Words written out bit by bit from the layout of R66 and the rows of R68, and what they decode to. -/
def Obligations.WordsWrittenOutDecode : Prop :=
  decode 0b00000001000000000000000000010001 = .ok (.init true 256) ∧
  decode 0b00000000110010000000000000010001 = .ok (.init true 200) ∧
  decode 0b00000000000000110000000000110010 = .ok (.update true true 3) ∧
  decode 0b00000000000001010000000000010010 = .ok (.update true false 5) ∧
  decode 0b00000000000000000000000000110011 = .ok (.finalize true true) ∧
  decode 0b00000000000000000000000000100011 = .ok (.finalize false true) ∧
  decode 0b00000000110010000000000000110001 = .error .initWithBuffer

/-- R73: the announced length is ARG for an UPDATE with BP = 1 and 0 for every other word, and it is what the decoded
command announces. -/
def Obligations.AnnouncedLengthOfAWord : Prop :=
  ∀ w : Word,
    announced w = (if w.toNat % 16 = 2 ∧ w.toNat / 32 % 2 = 1 then w.toNat / 65536 else 0) ∧
    ∀ i, decode w = .ok i → i.announced = announced w

/-- R69, R70, R71: every reserved word completes with ILLEGAL_COMMAND (code 3), its announced payload consumed, and
changes nothing else. The four reserved cases are written on the bits of the word. -/
def Obligations.ReservedWordsAreIllegalCommands : Prop :=
  ∀ (s : State) (w : Word) (p : List Byte) (rest : List HostMove),
    Possible s → s.channel = .transaction w p :: rest → p.length = announced w →
    (w.toNat % 16 = 0 ∨ 4 ≤ w.toNat % 16 ∨ w.toNat / 64 % 1024 ≠ 0 ∨
      (w.toNat % 16 = 1 ∧ w.toNat / 32 % 2 = 1) ∨ (w.toNat % 16 = 3 ∧ w.toNat / 65536 ≠ 0)) →
    step s = .next { s with channel := rest, payload := [], statusOk := false, statusErr := 3 }

/-! ### The permutation engine (spec/40_permutation.md) -/

/-- R12: "After it, bit `z` of the input is at bit `(z + n) mod 64`." -/
def Obligations.RotationMovesEachBit : Prop :=
  ∀ (v : Lane) (n z : Nat), n ≤ 63 → z < 64 → (rotl v n).getLsbD ((z + n) % 64) = v.getLsbD z

/-- R86: each output lane of theta is the input lane XORed with the parities of the two neighbouring columns, the right
one rotated by 1; "if every column has parity 0 …, theta is the identity". -/
def Obligations.ThetaAddsColumnParities : Prop :=
  ∀ a : Lanes,
    (∀ x y : Nat, x < 5 → y < 5 →
      lane (theta a) x y =
        lane a x y ^^^
          ((lane a (x + 4) 0 ^^^ lane a (x + 4) 1 ^^^ lane a (x + 4) 2 ^^^ lane a (x + 4) 3 ^^^ lane a (x + 4) 4) ^^^
            rotl (lane a (x + 1) 0 ^^^ lane a (x + 1) 1 ^^^ lane a (x + 1) 2 ^^^ lane a (x + 1) 3 ^^^
              lane a (x + 1) 4) 1)) ∧
    ((∀ x : Nat, x < 5 → lane a x 0 ^^^ lane a x 1 ^^^ lane a x 2 ^^^ lane a x 3 ^^^ lane a x 4 = 0) → theta a = a)

/-- R87: bit `z` of lane `i` moves to bit `(z + RHO[i]) mod 64` of lane `i`, and every offset is at most 63. That the
offsets are those of R88's generating rule rests on what the spec marks "[from general knowledge, not in source]"
(PRESUMED, log entry 18). -/
def Obligations.RhoRotatesByTheTable : Prop :=
  ∀ (a : Lanes) (i : Fin 25), rhoTable[i] = rhoGenerated i.val ∧ rhoTable[i] ≤ 63 ∧
    ∀ z : Nat, z < 64 → ((rho a)[i]).getLsbD ((z + rhoTable[i]) % 64) = (a[i]).getLsbD z

/-- pi moves whole lanes by the list `P`, an inference the spec marks as its own (R89: "[derived: from this rule's formula
and 00_scope.md rule R11]"), and "the multiset of lane values is preserved". -/
def Obligations.PiRelocatesLanes : Prop :=
  ∀ a : Lanes,
    (pi a).toList =
      [0, 6, 12, 18, 24, 3, 9, 10, 16, 22, 1, 7, 13, 19, 20, 4, 5, 11, 17, 23, 2, 8, 14, 15, 21].map
        (fun i : Fin 25 => a[i]) ∧
    (pi a).toList.Perm a.toList

/-- R90: every bit of a row's output from the row's input bits, and "A row of all zeros or all ones is unchanged". -/
def Obligations.ChiActsOnRows : Prop :=
  ∀ (a : Lanes) (y : Nat), y < 5 →
    (∀ x z : Nat, x < 5 → z < 64 →
      (lane (chi a) x y).getLsbD z =
        ((lane a x y).getLsbD z ^^ (!(lane a (x + 1) y).getLsbD z && (lane a (x + 2) y).getLsbD z))) ∧
    ∀ v : Lane, (v = 0 ∨ v = BitVec.allOnes 64) → (∀ x : Nat, x < 5 → lane a x y = v) →
      ∀ x : Nat, x < 5 → lane (chi a) x y = v

/-- R91: iota XORs the round's constant into lane 0, and "only lane 0 changes". That the constants are those of R92's
generating rule rests on what the spec marks "[from general knowledge, not in source]" (PRESUMED, log entry 18). -/
def Obligations.IotaChangesLaneZeroOnly : Prop :=
  ∀ (a : Lanes) (ir : Fin 24),
    (iota a ir)[0] = a[0] ^^^ rcGenerated ir.val ∧
    ∀ i : Fin 25, i ≠ 0 → (iota a ir)[i] = a[i]

/-- R94's worked example: the lanes 0 and 24 of `KeccakF(0)`. -/
def Obligations.KeccakOfTheZeroState : Prop :=
  (keccakF (Vector.replicate 25 0))[0] = 0xF1258F7940E1DDE7 ∧
  (keccakF (Vector.replicate 25 0))[24] = 0xEAF1FF7B5CECA249

/-- R31, R95: the loop-driven engine, one round a cycle from round index 0, computes `KeccakF` in 24 cycles, whatever
its theta temporaries held before. -/
def Obligations.LoopDrivenEngineComputesKeccakF : Prop :=
  ∀ (a : Lanes) (r : EngineRegs), r.ir = 0 → (engineCycles 24 (r, a)).2 = keccakF a

/-- R96: the permutation is a bijection on the states of 25 lanes. -/
def Obligations.KeccakFIsABijection : Prop :=
  Function.Bijective keccakF

/-! ### The storage and its byte order (spec/20_memory.md) -/

/-- R46: "`MemRead(8i, 8)` has `buf[8i]` in bits [7:0] and `buf[8i+7]` in bits [63:56]", and every byte between them
likewise. -/
def Obligations.MemReadIsLittleEndian : Prop :=
  ∀ (m : Memory) (i k : Nat), k < 8 → (m.laneAt i).extractLsb' (8 * k) 8 = m.read (8 * i + k)

/-- R46: what `MemWrite(addr, n, v)` writes `MemRead(addr, n)` reads, and every byte outside is unchanged. -/
def Obligations.MemWriteThenMemRead : Prop :=
  ∀ (m : Memory) (addr n v : Nat), m.wf = true → addr + n ≤ 144 →
    (m.memWrite addr n v).memRead addr n = v % 2 ^ (8 * n) ∧
    ∀ a : Nat, (a < addr ∨ addr + n ≤ a) → (m.memWrite addr n v).read a = m.read a

/-- An inference the spec marks as its own (20_memory.md section 2: "Absorbing a byte and extracting at the same index
therefore use the same mapping"): absorbing XORs buffer byte `k` into the byte that `LaneByte(k)` reads, for `k` below
the rate, and leaves the capacity bytes as they are. -/
def Obligations.AbsorptionAndExtractionAgree : Prop :=
  ∀ (lanes : Lanes) (m : Memory) (rate k : Nat), legalRate rate = true → k < 200 →
    laneByte (xorBlock lanes m rate) k = if k < rate then laneByte lanes k ^^^ m.read k else laneByte lanes k

/-! ### Reset and the host's side (spec/70_reset_and_hazards.md) -/

/-- R40, R170: the state after reset, for every register that the rules give a reset value. Two clauses are the model's
choice: that `config` holds R7's default of SEQ_GUARD (DESIGN CHOICE, log entry 5), which is no reset value of R40, and
that a buffer address from 144 up reads 0 (DESIGN CHOICE, log entry 11). -/
def Obligations.ResetStateIsTheScrubbedState : Prop :=
  State.reset.lanes = Vector.replicate 25 0 ∧ State.reset.rateBytes = 0 ∧
  (∀ a : Nat, State.reset.blockBuffer.read a = 0) ∧ State.reset.bufferOffset = 0 ∧ State.reset.phase = 0 ∧
  State.reset.statusOk = false ∧ State.reset.statusErr = 0 ∧ State.reset.status = 0 ∧
  State.reset.faultMark = false ∧ State.reset.config.seqGuard = true

/-- R170, and R171 for a reset during a transaction: asserting reset, in every state, the faulted ones too: the HashState
is zero, PHASE is UNINIT, STATUS is zero, and the fault mark (R34) and the parameters are unaffected. The engine's
registers, which R170 leaves unspecified, are left open here. That the abandoned transaction's payload is gone is the
model's choice (DEDUCED, log entry 8). What the digest channel holds is another statement. -/
def Obligations.ResetInputClearsTheBlock : Prop :=
  ∀ (s : State) (rest : List HostMove),
    (s.channel = .reset :: rest ∨ ∃ w p, s.channel = .resetDuring w p :: rest) →
    ∃ t, step s = .next t ∧
      t = { s with
        lanes := Vector.replicate 25 0, rateBytes := 0, blockBuffer := [], bufferOffset := 0, phase := 0,
        statusOk := false, statusErr := 0, payload := [], channel := rest,
        digestOut := t.digestOut, engine := t.engine, freeCount := t.freeCount }

/-- The model's choice (DEDUCED, log entry 8: R170's list has it not): reset leaves the bytes on the digest channel, and
an abandoned FINALIZE adds none. -/
def Obligations.ResetLeavesTheDigestChannel : Prop :=
  ∀ (s t : State) (rest : List HostMove),
    (s.channel = .reset :: rest ∨ ∃ w p, s.channel = .resetDuring w p :: rest) → step s = .next t →
    t.digestOut = s.digestOut

/-- R27: the layout of STATUS, whose PHASE field is a copy of PHASE. -/
def Obligations.StatusRegisterLayout : Prop :=
  ∀ s : State, s.status.getLsbD 0 = s.statusOk ∧ s.status.extractLsb' 1 3 = s.statusErr ∧
    s.status.extractLsb' 4 2 = s.phase

/-- R52: "Reading STATUS has no side effect and may be repeated with the same result until the next transaction
completes": any number of reads in a row leaves every field but the channel they were issued on. -/
def Obligations.StatusReadsHaveNoSideEffect : Prop :=
  ∀ (s : State) (n : Nat) (rest : List HostMove), Possible s →
    s.channel = List.replicate n .readStatus ++ rest → steps n s = .next { s with channel := rest }

/-- R165: "Between commands it holds its state and does nothing." -/
def Obligations.IdleBlockHoldsItsState : Prop :=
  ∀ s : State, s.channel = [] → step s = .next s

/-- The model's form of the digest channel of R36 (DESIGN CHOICE, log entry 9): the host takes the emitted bytes in
order, and nothing else changes. -/
def Obligations.TakingTheDigestTakesItsFirstBytes : Prop :=
  ∀ (s : State) (bytes later : List Byte) (rest : List HostMove), Possible s →
    s.channel = .takeDigest bytes.length :: rest → s.digestOut = bytes ++ later →
    step s = .next { s with channel := rest, digestOut := later }

/-- R74, R110: when the next transaction's word decodes to a command, the step is that command, run on the state in
which the transaction has left the channel and its payload is delivered. -/
def Obligations.StepRunsTheDecodedCommand : Prop :=
  ∀ (s : State) (w : Word) (p : List Byte) (rest : List HostMove) (i : Instr),
    s.channel = .transaction w p :: rest → decode w = .ok i →
    step s = exec i { s with channel := rest, payload := p }

/-- R73: a transaction whose payload has not the announced length is refused at the boundary, whatever its word. That it is
refused in every state, also where the fault mark is set, PHASE is 3 or ERR holds a reserved code, is the model's choice
of the order of these checks (DESIGN CHOICE, log entry 13). -/
def Obligations.IllFormedTransactionIsRefused : Prop :=
  ∀ (s : State) (w : Word) (p : List Byte) (rest : List HostMove),
    s.channel = .transaction w p :: rest → p.length ≠ announced w →
    step s = .refused (.illFormedTransaction (announced w) p.length)

/-! ### INIT (spec/41_sponge_commands.md section 3) -/

/-- R112, R113, R130: a successful INIT, in every phase, is this next state and no other change. -/
def Obligations.InitSetsUpTheVariant : Prop :=
  ∀ (s : State) (bitsize : Nat), Possible s → s.payload = [] →
    (bitsize = 224 ∨ bitsize = 256 ∨ bitsize = 384 ∨ bitsize = 512) →
    exec (.init true bitsize) s = .next { s with
      lanes := Vector.replicate 25 0
      blockBuffer := []
      bufferOffset := 0
      rateBytes := BitVec.ofNat 8 ((1600 - 2 * bitsize) / 8)
      phase := 1
      statusOk := true
      statusErr := 0 }

/-- R112: the four rates and digest lengths of the table, and that the rate register holds the rate whole. -/
def Obligations.RateAndDigestLengthOfEachVariant : Prop :=
  (rateOf 224 = 144 ∧ rateOf 256 = 136 ∧ rateOf 384 = 104 ∧ rateOf 512 = 72) ∧
  ∀ bitsize : Nat, supportedBitsize bitsize = true →
    (BitVec.ofNat 8 (rateOf bitsize)).toNat = rateOf bitsize ∧ digestBytes (rateOf bitsize) = bitsize / 8 ∧
    legalRate (rateOf bitsize) = true ∧ bitsize / 8 ≤ rateOf bitsize ∧ 1600 - 8 * rateOf bitsize = 2 * bitsize

/-- R114, R110: an INIT with HP = 0 or an unsupported `bitsize` writes STATUS.OK and STATUS.ERR alone, in every phase. -/
def Obligations.FailingInitChangesStatusOnly : Prop :=
  ∀ (s : State) (hp : Bool) (bitsize : Nat), Possible s → s.payload = [] →
    (hp = false ∨ (bitsize ≠ 224 ∧ bitsize ≠ 256 ∧ bitsize ≠ 384 ∧ bitsize ≠ 512)) →
    exec (.init hp bitsize) s = .next { s with statusOk := false, statusErr := 1 }

/-! ### UPDATE (spec/41_sponge_commands.md section 4) -/

/-- An inference the spec marks as its own (41_sponge_commands.md section 4: "runs AbsorbBlock exactly
`⌊(off₀ + length) / rate_bytes⌋` times, and ends with `off = (off₀ + length) mod rate_bytes`"): UPDATE completes in
READY with that offset, the model's counter counts those runs (DESIGN CHOICE, log entry 3), and only lanes, buffer bytes
below the rate, the offset, STATUS and the engine's registers change. -/
def Obligations.UpdateOffsetAndPermutationCount : Prop :=
  ∀ (s : State) (bp : Bool) (length : Nat), Possible s → s.phase = phaseReady → s.spongeOk = true →
    (bp = true ∨ length = 0) → s.payload.length = length →
    ∃ t, exec (.update true bp length) s = .next t ∧
      t.bufferOffset.toNat = (s.bufferOffset.toNat + length) % s.rateBytes.toNat ∧
      t.freeCount = s.freeCount + (s.bufferOffset.toNat + length) / s.rateBytes.toNat ∧
      (s.blockBuffer.wf = true → ∀ a : Nat, s.rateBytes.toNat ≤ a → t.blockBuffer.read a = s.blockBuffer.read a) ∧
      t = { s with
        lanes := t.lanes, blockBuffer := t.blockBuffer, bufferOffset := t.bufferOffset,
        statusOk := true, statusErr := 0, payload := [], engine := t.engine, freeCount := t.freeCount }

/-- R115's loop, a byte at a time: the first byte of the payload is stored at the offset, the offset moves on, a full
buffer is absorbed at once, and the rest of the payload follows as a shorter UPDATE would. Where the buffer fills, two
things are the model's choice: the engine's registers are the free value of log entry 3 (DESIGN CHOICE), and the flushed
block's bytes stay in the buffer, which R25 leaves open (DESIGN CHOICE, log entry 10). -/
def Obligations.UpdateTakesItsBytesOneAtATime : Prop :=
  ∀ (s : State) (b : Byte) (later : List Byte), Possible s → s.phase = phaseReady → s.spongeOk = true →
    s.payload = b :: later →
    exec (.update true true (later.length + 1)) s = exec (.update true true later.length)
      (if s.bufferOffset.toNat + 1 = s.rateBytes.toNat then
        { s with
          lanes := keccakF (xorBlock s.lanes (s.blockBuffer.write s.bufferOffset.toNat b) s.rateBytes.toNat)
          blockBuffer := s.blockBuffer.write s.bufferOffset.toNat b
          bufferOffset := 0
          payload := later
          engine := Config.freeEngine s.freeCount
          freeCount := s.freeCount + 1 }
      else
        { s with
          blockBuffer := s.blockBuffer.write s.bufferOffset.toNat b
          bufferOffset := s.bufferOffset + 1
          payload := later })

/-- R115: an UPDATE that does not fill the buffer stores its payload from the offset on, byte by byte, and changes no
other byte, no lane and nothing else but the offset and STATUS. -/
def Obligations.UpdateStoresBelowTheRate : Prop :=
  ∀ (s : State) (length : Nat), Possible s → s.phase = phaseReady → s.spongeOk = true → s.blockBuffer.wf = true →
    s.payload.length = length → s.bufferOffset.toNat + length < s.rateBytes.toNat →
    ∃ t, exec (.update true true length) s = .next t ∧
      (∀ a : Nat, t.blockBuffer.read a =
        if s.bufferOffset.toNat ≤ a ∧ a < s.bufferOffset.toNat + length then
          s.payload.getD (a - s.bufferOffset.toNat) 0
        else s.blockBuffer.read a) ∧
      t = { s with
        blockBuffer := t.blockBuffer, bufferOffset := s.bufferOffset + BitVec.ofNat 8 length,
        statusOk := true, statusErr := 0, payload := [] }

/-- R111, R115: an UPDATE whose last byte fills the buffer flushes at that byte: the full buffer, with the payload
in its place, is XORed into the rate lanes and the permutation is run, and the offset is 0. That the buffer's bytes stay,
which are stale from then on, is the model's choice, since R25 lets a model keep or zero them (DESIGN CHOICE, log
entry 10). -/
def Obligations.UpdateFlushesAFullBuffer : Prop :=
  ∀ (s : State) (length : Nat), Possible s → s.phase = phaseReady → s.spongeOk = true → s.blockBuffer.wf = true →
    s.payload.length = length → s.bufferOffset.toNat + length = s.rateBytes.toNat →
    ∃ t, exec (.update true true length) s = .next t ∧
      (∀ a : Nat, t.blockBuffer.read a =
        if s.bufferOffset.toNat ≤ a ∧ a < s.rateBytes.toNat then s.payload.getD (a - s.bufferOffset.toNat) 0
        else s.blockBuffer.read a) ∧
      (∃ xored : Lanes, t.lanes = keccakF xored ∧
        ∀ j : Fin 25, xored[j] = if j.val < s.rateBytes.toNat / 8 then s.lanes[j] ^^^ t.blockBuffer.laneAt j.val
          else s.lanes[j]) ∧
      t = { s with
        lanes := t.lanes, blockBuffer := t.blockBuffer, bufferOffset := 0,
        statusOk := true, statusErr := 0, payload := [], engine := t.engine, freeCount := t.freeCount }

/-- R116: an UPDATE with `length = 0` and HP = 1 passes the argument checks whatever BP is: in READY it changes nothing
but STATUS, which reports success; "In another phase, rule R110's phase check applies to it like any other UPDATE". What
the state that the fault of the third clause leaves holds beside the mark is the model's choice (DESIGN CHOICE, log
entry 7). -/
def Obligations.ZeroLengthUpdateIsANoOpSuccess : Prop :=
  ∀ (s : State) (bp : Bool), Possible s → s.payload = [] →
    (s.phase = phaseReady → s.spongeOk = true →
      exec (.update true bp 0) s = .next { s with statusOk := true, statusErr := 0 }) ∧
    (s.phase ≠ phaseReady → s.config.seqGuard = true →
      exec (.update true bp 0) s = .next { s with statusOk := false, statusErr := 2 }) ∧
    (s.phase ≠ phaseReady → s.config.seqGuard = false →
      exec (.update true bp 0) s = .fault (.contractViolation { s with faultMark := true }))

/-- R117, R110, R153: an UPDATE with HP = 0, or with BP = 0 and a positive length, is an INVALID_ARGUMENT in every phase
and absorbs nothing, its payload consumed. -/
def Obligations.UpdateWithoutHandleOrBufferFails : Prop :=
  ∀ (s : State) (hp bp : Bool) (length : Nat), Possible s →
    s.payload.length = (if bp = true then length else 0) → (hp = false ∨ (bp = false ∧ 0 < length)) →
    exec (.update hp bp length) s = .next { s with statusOk := false, statusErr := 1, payload := [] }

/-- An inference the spec marks as its own (R119: "[derived: from rule R115]"), of which the source requires that "the
digest of any input is independent of how the caller partitions `update` calls": two nonempty splits of one message into
UPDATE transactions lead to the same state, from every READY state. R119 names the lanes, the buffer below the offset and
the offset; that the bytes at and above the offset and the engine's registers agree too rests on the model's choices
(DESIGN CHOICE, log entries 10 and 3). -/
def Obligations.ChunkingDoesNotChangeTheState : Prop :=
  ∀ (s : State) (first second : List (List Byte)) (rest : List HostMove), Possible s → s.phase = phaseReady →
    s.spongeOk = true → first ≠ [] → second ≠ [] → first.flatten = second.flatten →
    (∀ c ∈ first, c.length ≤ 65535) → (∀ c ∈ second, c.length ≤ 65535) →
    ∃ t, t.phase = phaseReady ∧ t.channel = rest ∧
      steps first.length { s with
        channel := (first.map fun c => .transaction (encode (.update true true c.length)) c) ++ rest } = .next t ∧
      steps second.length { s with
        channel := (second.map fun c => .transaction (encode (.update true true c.length)) c) ++ rest } = .next t

/-! ### FINALIZE (spec/41_sponge_commands.md section 5) -/

/-- R120 to R125: FINALIZE in READY absorbs the padded block, whose every byte below the rate is given here, emits the
first `(200 − rate)/2` bytes of the lane array in increasing index, and leaves the HashState zero, PHASE = DONE and
OK = 1; nothing else changes but the engine's registers and the counter. -/
def Obligations.FinalizeEmitsTheDigestAndScrubs : Prop :=
  ∀ s : State, Possible s → s.phase = phaseReady → s.spongeOk = true → s.blockBuffer.wf = true → s.payload = [] →
    ∃ (t : State) (xored : Lanes) (padded : Memory),
      exec (.finalize true true) s = .next t ∧
      (∀ a : Nat, a < s.rateBytes.toNat → padded.read a =
        if a < s.bufferOffset.toNat then s.blockBuffer.read a
        else (if a = s.bufferOffset.toNat then 0x06 else 0) ||| (if a = s.rateBytes.toNat - 1 then 0x80 else 0)) ∧
      (∀ j : Fin 25, xored[j] = if j.val < s.rateBytes.toNat / 8 then s.lanes[j] ^^^ padded.laneAt j.val
        else s.lanes[j]) ∧
      t = { s with
        lanes := Vector.replicate 25 0, rateBytes := 0, blockBuffer := [], bufferOffset := 0, phase := 2,
        statusOk := true, statusErr := 0,
        digestOut := s.digestOut ++
          (List.range ((200 - s.rateBytes.toNat) / 2)).map (fun j =>
            ((keccakF xored)[j / 8 % 25]'(Nat.mod_lt _ (by decide))).extractLsb' (8 * (j % 8)) 8),
        engine := t.engine, freeCount := t.freeCount }

/-- R121, R122: "Pad gives `buf[rate_bytes − 1] = 0x06 ∨ 0x80 = 0x86`, and no other byte is written" when
`off = rate_bytes − 1`. -/
def Obligations.PaddingCollisionIsEightySix : Prop :=
  ∀ (m : Memory) (rate : Nat), m.wf = true → legalRate rate = true →
    (padBlock m (rate - 1) rate).read (rate - 1) = 0x86 ∧
    ∀ a : Nat, a ≠ rate - 1 → (padBlock m (rate - 1) rate).read a = m.read a

/-- An inference the spec marks as its own (41_sponge_commands.md section 5: "The padding is never omitted, even on an
exact boundary"): with offset 0 the padded block is `06 00 … 00 80`, whatever the buffer held. -/
def Obligations.ExactBoundaryPadsAWholeBlock : Prop :=
  ∀ (m : Memory) (rate a : Nat), m.wf = true → legalRate rate = true → a < rate →
    (padBlock m 0 rate).read a = if a = 0 then 0x06 else if a = rate - 1 then 0x80 else 0

/-- R127, R110: a FINALIZE with HP = 0 or BP = 0 emits nothing and writes STATUS.OK and STATUS.ERR alone, in every
phase. -/
def Obligations.FailingFinalizeEmitsNothing : Prop :=
  ∀ (s : State) (hp bp : Bool), Possible s → s.payload = [] → (hp = false ∨ bp = false) →
    exec (.finalize hp bp) s = .next { s with statusOk := false, statusErr := 1 }

/-- R118: with SEQ_GUARD true, an UPDATE or FINALIZE with valid arguments outside READY reports SEQUENCE_ERROR and
changes nothing else, its payload consumed. -/
def Obligations.OutOfPhaseCommandIsASequenceError : Prop :=
  ∀ s : State, Possible s → s.phase ≠ phaseReady → s.config.seqGuard = true →
    (s.payload = [] →
      exec (.finalize true true) s = .next { s with statusOk := false, statusErr := 2 }) ∧
    ∀ (bp : Bool) (length : Nat), (bp = true ∨ length = 0) → s.payload.length = length →
      exec (.update true bp length) s = .next { s with statusOk := false, statusErr := 2, payload := [] }

/-- R155: with SEQ_GUARD false the same commands are the fault ContractViolation, which records the sticky mark. That the
state the fault leaves differs in the mark alone is the model's choice (DESIGN CHOICE, log entry 7). -/
def Obligations.UnguardedOutOfPhaseCommandFaults : Prop :=
  ∀ s : State, Possible s → s.phase ≠ phaseReady → s.config.seqGuard = false →
    (s.payload = [] →
      exec (.finalize true true) s = .fault (.contractViolation { s with faultMark := true })) ∧
    ∀ (bp : Bool) (length : Nat), (bp = true ∨ length = 0) → s.payload.length = length →
      exec (.update true bp length) s = .fault (.contractViolation { s with faultMark := true })

/-! ### The whole machine -/

/-- An invariant of the model, from R21 to R28 and R151, some of whose sentences the spec marks as its own inference: what
holds between transactions is kept by every step, of every command and every host move. -/
def Obligations.EveryStepKeepsTheInvariant : Prop :=
  ∀ s t : State, BlockInv s → step s = .next t → BlockInv t

/-- The reset state meets the invariant that every step keeps (R40, R170). -/
def Obligations.ResetMeetsTheInvariant : Prop :=
  BlockInv State.reset

/-- R176, R150, V8: with the guard, in a state that meets the invariant and has no fault recorded, every step completes,
but for the refusal of a transaction that is no behaviour of the hardware (R73). -/
def Obligations.GuardedBlockNeverFaults : Prop :=
  ∀ s : State, BlockInv s → s.faultMark = false → s.config.seqGuard = true →
    (∃ t, step s = .next t ∧ t.faultMark = false) ∨
    ∃ (w : Word) (p : List Byte) (rest : List HostMove), s.channel = .transaction w p :: rest ∧
      p.length ≠ announced w ∧ step s = .refused (.illFormedTransaction (announced w) p.length)

/-- R153, R151: a transaction that ends with OK = 0 has changed STATUS and consumed its payload, and nothing else: "no
partial progress is committed on failure". The code is one of the three that are written. -/
def Obligations.FailureCommitsNoPartialProgress : Prop :=
  ∀ (s t : State) (w : Word) (p : List Byte) (rest : List HostMove),
    s.channel = .transaction w p :: rest → step s = .next t → t.statusOk = false →
    (t.statusErr = 1 ∨ t.statusErr = 2 ∨ t.statusErr = 3) ∧
    t = { s with channel := rest, payload := [], statusOk := false, statusErr := t.statusErr }

/-- R36, R120: no step but a successful FINALIZE puts bytes on the digest channel, and that one appends exactly
`digest_bytes` of them. Two clauses are the model's choice: that a FINALIZE abandoned by reset puts none there, where
R171 speaks of bytes already emitted (DEDUCED, log entry 8), and that bytes not yet taken stay in front (DESIGN CHOICE,
log entry 9). -/
def Obligations.OnlyFinalizeEmits : Prop :=
  ∀ s t : State, step s = .next t →
    (∃ n, t.digestOut = s.digestOut.drop n) ∨
    ∃ (w : Word) (p : List Byte) (rest : List HostMove) (digest : List Byte),
      s.channel = .transaction w p :: rest ∧ decode w = .ok (.finalize true true) ∧ s.phase = phaseReady ∧
      t.digestOut = s.digestOut ++ digest ∧ digest.length = (200 - s.rateBytes.toNat) / 2 ∧ t.status = 0x21

/-- R26, R131: the phase transitions: a step changes PHASE only by a successful INIT (to READY), a successful FINALIZE
(READY to DONE) or reset (to UNINIT). -/
def Obligations.PhaseTransitions : Prop :=
  ∀ s t : State, step s = .next t → t.phase ≠ s.phase →
    (∃ (w : Word) (p : List Byte) (rest : List HostMove), s.channel = .transaction w p :: rest ∧ t.statusOk = true ∧
      ((∃ bitsize, decode w = .ok (.init true bitsize) ∧ t.phase = phaseReady) ∨
       (decode w = .ok (.finalize true true) ∧ s.phase = phaseReady ∧ t.phase = phaseDone))) ∨
    ((∃ rest, s.channel = .reset :: rest ∨ ∃ w p, s.channel = .resetDuring w p :: rest) ∧ t.phase = phaseUninit)

/-- R20, R21, in part: a step changes the lanes only by INIT, UPDATE, FINALIZE or reset, and "Only INIT writes it to a
non-zero value" of the rate. Writes of 0 to the rate are the statement WhoZeroesTheRate. -/
def Obligations.WhoWritesLanesAndRate : Prop :=
  ∀ s t : State, step s = .next t →
    (t.rateBytes ≠ s.rateBytes → t.rateBytes ≠ 0 →
      ∃ w p rest bitsize, s.channel = .transaction w p :: rest ∧ decode w = .ok (.init true bitsize) ∧
        t.rateBytes.toNat = (1600 - 2 * bitsize) / 8) ∧
    (t.lanes ≠ s.lanes →
      (∃ w p rest i, s.channel = .transaction w p :: rest ∧ decode w = .ok i ∧ t.statusOk = true ∧
        (s.phase = phaseReady ∨ ∃ bitsize, i = .init true bitsize)) ∨
      ((∃ rest, s.channel = .reset :: rest ∨ ∃ w p, s.channel = .resetDuring w p :: rest) ∧
        t.lanes = Vector.replicate 25 0))

/-- R34: the fault mark is set in the state that every fault leaves, and a step that completes neither sets nor clears
it: "never cleared, not even by INIT or reset". -/
def Obligations.FaultMarkIsSticky : Prop :=
  (∀ s t : State, step s = .next t → t.faultMark = s.faultMark) ∧
  ∀ (s : State) (f : Fault), step s = .fault f → f.state.faultMark = true

/-- The model's choice (DEDUCED, log entry 7; R179: a run that contains a faulted transaction "has no defined result"):
no transaction completes once the fault mark is set. -/
def Obligations.NoTransactionCompletesAfterAFault : Prop :=
  ∀ (s t : State) (w : Word) (p : List Byte) (rest : List HostMove),
    s.faultMark = true → s.channel = .transaction w p :: rest → step s ≠ .next t

/-- R26, R151, V4, V5: PHASE = 3 and a reserved code in STATUS.ERR are faults. That every transaction that meets one
faults, one with an illegal word too, and that the state left has the transaction taken and its payload delivered, is
the model's choice (DEDUCED and DESIGN CHOICE, log entry 7), and so is that PHASE = 3 comes before the code (DESIGN
CHOICE, log entry 13). -/
def Obligations.ReservedValuesFault : Prop :=
  ∀ (s : State) (w : Word) (p : List Byte) (rest : List HostMove),
    s.channel = .transaction w p :: rest → p.length = announced w → s.faultMark = false →
    (s.phase = 3 → step s = .fault (.contractViolation
      { s with channel := rest, payload := p, faultMark := true })) ∧
    (s.phase ≠ 3 → 4 ≤ s.statusErr.toNat → step s = .fault (.reservedErrorCode
      { s with channel := rest, payload := p, faultMark := true }))

/-- The model's choice (DEDUCED, log entry 12: the rules leave no such state): in READY, an UPDATE or FINALIZE with
valid arguments over a rate that is none of the four, or an offset not below it, faults. That the state left differs
in the mark alone is log entry 7 (DESIGN CHOICE). -/
def Obligations.BrokenSpongeFaults : Prop :=
  ∀ s : State, Possible s → s.phase = phaseReady →
    ((s.rateBytes ≠ 144 ∧ s.rateBytes ≠ 136 ∧ s.rateBytes ≠ 104 ∧ s.rateBytes ≠ 72) ∨
      s.rateBytes.toNat ≤ s.bufferOffset.toNat) →
    (s.payload = [] → exec (.finalize true true) s = .fault (.brokenSponge { s with faultMark := true })) ∧
    ∀ (bp : Bool) (length : Nat), (bp = true ∨ length = 0) → s.payload.length = length →
      exec (.update true bp length) s = .fault (.brokenSponge { s with faultMark := true })

/-- R25, R39: stale buffer bytes are unobservable: two states that differ in them alone give, for every schedule of the
host and every number of steps, the same list of (STATUS, emitted bytes) pairs. -/
def Obligations.StaleBytesAreUnobservable : Prop :=
  ∀ (k : Nat) (s t : State), AgreeExceptStale s t →
    (observe k s).map (fun r => r.2) = (observe k t).map (fun r => r.2)

/-- R179: a run's observation is one pair per transaction. -/
def Obligations.OneObservationPerTransaction : Prop :=
  ∀ (k : Nat) (s u : State) (seen : List Observation), observe k s = some (u, seen) →
    seen.length = ((s.channel.take k).filter fun m => match m with
      | .transaction _ _ => true
      | _ => false).length

/-- The closed form of the digest, an inference the spec marks as its own (41_sponge_commands.md section 6: "This closed
form follows from rules R111 to R124"): INIT, any split of a message into UPDATE transactions, and FINALIZE, from every
state with no fault recorded and in every phase, put `SHA3(bitsize, M)` on the digest channel and leave the HashState
zero and STATUS = 0x21. That the digest stands behind bytes not yet taken is log entry 9 (DESIGN CHOICE). -/
def Obligations.CommandsComputeSha3 : Prop :=
  ∀ (s : State) (bitsize : Nat) (chunks : List (List Byte)) (rest : List HostMove),
    Possible s → supportedBitsize bitsize = true → (∀ c ∈ chunks, c.length ≤ 65535) →
    ∃ t : State,
      steps (chunks.length + 2) { s with
        channel := .transaction (encode (.init true bitsize)) [] ::
          ((chunks.map fun c => .transaction (encode (.update true true c.length)) c) ++
            .transaction (encode (.finalize true true)) [] :: rest) } = .next t ∧
      t.digestOut = s.digestOut ++ sha3 bitsize chunks.flatten ∧
      HashStateZero t ∧ t.phase = phaseDone ∧ t.status = 0x21 ∧ t.channel = rest

/-- The expansion of R76 with the closed form above (log entry 9 as there): the pseudo-instruction `sha3 <bitsize>,
<data>` expands, for data of every length, to a program that runs and emits `SHA3(bitsize, data)`. -/
def Obligations.Sha3PseudoInstructionEmitsTheDigest : Prop :=
  ∀ (s : State) (bitsize : Nat) (data : List Byte), Possible s → supportedBitsize bitsize = true →
    ∃ (program : List Asm.Transaction) (t : State), Asm.sha3Program bitsize data = some program ∧
      steps program.length { s with channel := Asm.moves program } = .next t ∧
      t.digestOut = s.digestOut ++ sha3 bitsize data ∧ EndsWell t

/-- R21, in part: "The scrub and reset set it to 0": a step that writes 0 to a rate that was not 0 is a FINALIZE in READY,
which ends in DONE, or a reset. -/
def Obligations.WhoZeroesTheRate : Prop :=
  ∀ s t : State, step s = .next t → t.rateBytes ≠ s.rateBytes → t.rateBytes = 0 →
    (∃ (w : Word) (p : List Byte) (rest : List HostMove), s.channel = .transaction w p :: rest ∧
      decode w = .ok (.finalize true true) ∧ s.phase = phaseReady ∧ t.phase = phaseDone) ∨
    ((∃ rest, s.channel = .reset :: rest ∨ ∃ w p, s.channel = .resetDuring w p :: rest) ∧ t.phase = phaseUninit)
end

