-- ==== Sys2Proof/Laws/Decode.lean ====
section
/-! SUPPORT. The fields of a packed command word (R66). -/

namespace Sys2Proof

theorem packWord_toNat {arg rsv op : Nat} {bp hp : Bool} (ha : arg < 65536) (hr : rsv < 1024) (ho : op < 16) :
    (packWord arg rsv bp hp op).toNat = arg * 65536 + rsv * 64 + bp.toNat * 32 + hp.toNat * 16 + op := by
  have h1 := bp.toNat_lt
  have h2 := hp.toNat_lt
  unfold packWord
  rw [BitVec.toNat_append, BitVec.toNat_append, BitVec.toNat_append, BitVec.toNat_append]
  simp only [BitVec.toNat_ofNat, BitVec.toNat_ofBool]
  rw [← Nat.shiftLeft_add_eq_or_of_lt (by omega), ← Nat.shiftLeft_add_eq_or_of_lt (by omega),
    ← Nat.shiftLeft_add_eq_or_of_lt (by omega), ← Nat.shiftLeft_add_eq_or_of_lt (by omega)]
  simp only [Nat.shiftLeft_eq]
  omega

theorem opField_eq (w : Word) : opField w = w.toNat % 16 := by
  simp [opField, BitVec.extractLsb'_toNat]

theorem rsvField_eq (w : Word) : rsvField w = w.toNat / 64 % 1024 := by
  simp [rsvField, BitVec.extractLsb'_toNat, Nat.shiftRight_eq_div_pow]

theorem argField_eq (w : Word) : argField w = w.toNat / 65536 % 65536 := by
  simp [argField, BitVec.extractLsb'_toNat, Nat.shiftRight_eq_div_pow]

theorem hpField_eq (w : Word) : hpField w = decide (w.toNat / 16 % 2 = 1) := by
  simp [hpField, BitVec.getLsbD, Nat.testBit, Nat.shiftRight_eq_div_pow]
  rfl

theorem bpField_eq (w : Word) : bpField w = decide (w.toNat / 32 % 2 = 1) := by
  simp [bpField, BitVec.getLsbD, Nat.testBit, Nat.shiftRight_eq_div_pow]
  rfl

section Pack

variable {arg rsv op : Nat} {bp hp : Bool} (ha : arg < 65536) (hr : rsv < 1024) (ho : op < 16)
include ha hr ho

theorem opField_packWord : opField (packWord arg rsv bp hp op) = op := by
  have h1 := bp.toNat_lt
  have h2 := hp.toNat_lt
  rw [opField_eq, packWord_toNat ha hr ho]
  omega

theorem rsvField_packWord : rsvField (packWord arg rsv bp hp op) = rsv := by
  have h1 := bp.toNat_lt
  have h2 := hp.toNat_lt
  rw [rsvField_eq, packWord_toNat ha hr ho]
  omega

theorem argField_packWord : argField (packWord arg rsv bp hp op) = arg := by
  have h1 := bp.toNat_lt
  have h2 := hp.toNat_lt
  rw [argField_eq, packWord_toNat ha hr ho]
  omega

theorem hpField_packWord : hpField (packWord arg rsv bp hp op) = hp := by
  have h1 := bp.toNat_lt
  rw [hpField_eq, packWord_toNat ha hr ho]
  cases hp <;> simp <;> omega

theorem bpField_packWord : bpField (packWord arg rsv bp hp op) = bp := by
  have h2 := hp.toNat_lt
  rw [bpField_eq, packWord_toNat ha hr ho]
  cases bp <;> simp <;> omega

end Pack

theorem argField_lt (w : Word) : argField w < 65536 := by
  rw [argField_eq]
  omega

theorem announced_le (w : Word) : announced w ≤ 65535 := by
  have := argField_lt w
  unfold announced
  split <;> omega

/-- A decoded command by its word's fields: what each of the decoder's four results says (R74). -/
theorem decode_ok {w : Word} {i : Instr} (h : decode w = .ok i) :
    rsvField w = 0 ∧
    ((opField w = 1 ∧ bpField w = false ∧ i = .init (hpField w) (argField w)) ∨
     (opField w = 2 ∧ i = .update (hpField w) (bpField w) (argField w)) ∨
     (opField w = 3 ∧ argField w = 0 ∧ i = .finalize (hpField w) (bpField w))) := by
  unfold decode at h
  split at h
  · cases h
  · next hr =>
    refine ⟨by simpa using hr, ?_⟩
    split at h
    · next ho =>
      split at h
      · cases h
      · next hb => exact .inl ⟨ho, by simpa using hb, by cases h; rfl⟩
    · next ho => exact .inr (.inl ⟨ho, by cases h; rfl⟩)
    · next ho =>
      split at h
      · cases h
      · next ha => exact .inr (.inr ⟨ho, by simpa using ha, by cases h; rfl⟩)
    · cases h

end Sys2Proof
end

