-- ==== Sys2Proof/Laws/Memory.lean ====
section
/-! SUPPORT. The laws of the buffer's storage: read after write, every operation keeps the canonical form, and two
canonical listings that read alike are the same listing. -/

namespace Sys2Proof.Machine

namespace Memory

@[simp] theorem read_nil (a : Nat) : Memory.read [] a = 0 := rfl

@[simp] theorem wf_nil : Memory.wf [] = true := rfl

theorem wfFrom_cons {low a : Nat} {v : Byte} {m : Memory} :
    Memory.wfFrom low ((a, v) :: m) = true ↔
      low ≤ a ∧ a < Config.bufferSize ∧ v ≠ unlistedByte ∧ Memory.wfFrom (a + 1) m = true := by
  simp [Memory.wfFrom, and_assoc]

theorem wfFrom_mono {low low' : Nat} (h : low ≤ low') {m : Memory} (hm : Memory.wfFrom low' m = true) :
    Memory.wfFrom low m = true := by
  cases m with
  | nil => rfl
  | cons cell m =>
    rw [wfFrom_cons] at hm ⊢
    exact ⟨le_trans h hm.1, hm.2⟩

theorem read_below {low : Nat} {m : Memory} (h : Memory.wfFrom low m = true) {a : Nat} (ha : a < low) :
    Memory.read m a = 0 := by
  induction m generalizing low with
  | nil => rfl
  | cons cell m ih =>
    obtain ⟨b, v⟩ := cell
    rw [wfFrom_cons] at h
    rw [Memory.read, if_neg (by omega)]
    exact ih h.2.2.2 (by omega)

theorem read_beyond {low : Nat} {m : Memory} (h : Memory.wfFrom low m = true) {a : Nat} (ha : Config.bufferSize ≤ a) :
    Memory.read m a = 0 := by
  induction m generalizing low with
  | nil => rfl
  | cons cell m ih =>
    obtain ⟨b, v⟩ := cell
    rw [wfFrom_cons] at h
    rw [Memory.read, if_neg (by omega)]
    exact ih h.2.2.2

theorem wfFrom_put {low : Nat} {m : Memory} (h : Memory.wfFrom low m = true) {a : Nat} (hl : low ≤ a)
    (ha : a < Config.bufferSize) (v : Byte) : Memory.wfFrom low (Memory.put m a v) = true := by
  induction m generalizing low with
  | nil =>
    rw [Memory.put]
    split
    · rfl
    · next hv => exact wfFrom_cons.2 ⟨hl, ha, hv, rfl⟩
  | cons cell m ih =>
    obtain ⟨b, w⟩ := cell
    have h' := wfFrom_cons.1 h
    rw [Memory.put]
    split
    · split
      · exact h
      · next hv => exact wfFrom_cons.2 ⟨hl, ha, hv, wfFrom_cons.2 ⟨by omega, h'.2⟩⟩
    · split
      · split
        · exact wfFrom_mono (by omega) h'.2.2.2
        · next hab hv => exact wfFrom_cons.2 ⟨hl, ha, hv, hab ▸ h'.2.2.2⟩
      · exact wfFrom_cons.2 ⟨h'.1, h'.2.1, h'.2.2.1, ih h'.2.2.2 (by omega)⟩

theorem read_put {low : Nat} {m : Memory} (h : Memory.wfFrom low m = true) (a : Nat) (v : Byte) (b : Nat) :
    Memory.read (Memory.put m a v) b = if b = a then v else Memory.read m b := by
  induction m generalizing low with
  | nil =>
    rw [Memory.put]
    split
    · next hv => split <;> simp [hv, unlistedByte]
    · simp [Memory.read, unlistedByte]
  | cons cell m ih =>
    obtain ⟨c, w⟩ := cell
    have h' := wfFrom_cons.1 h
    rw [Memory.put]
    split
    · split
      · next hac hv =>
        split
        · next hb =>
          rw [Memory.read, if_neg (by omega), read_below h'.2.2.2 (by omega), hv, unlistedByte]
        · rfl
      · rw [Memory.read]
    · split
      · next hac =>
        subst hac
        split
        · next hv =>
          split
          · next hb => rw [hb, read_below h'.2.2.2 (by omega), hv, unlistedByte]
          · next hb => rw [Memory.read, if_neg hb]
        · rw [Memory.read, Memory.read]
          split <;> rfl
      · rw [Memory.read, ih h'.2.2.2, Memory.read]
        split
        · next hb => rw [if_neg (by omega)]
        · rfl

/-- Every write keeps the canonical form. -/
theorem wf_write {m : Memory} (h : m.wf = true) (a : Nat) (v : Byte) : (m.write a v).wf = true := by
  rw [Memory.write]
  split
  · next ha => exact wfFrom_put h (Nat.zero_le a) ha v
  · exact h

/-- A read after a write inside the space. -/
theorem read_write {m : Memory} (h : m.wf = true) {a : Nat} (ha : a < Config.bufferSize) (v : Byte) (b : Nat) :
    (m.write a v).read b = if b = a then v else m.read b := by
  rw [Memory.write, if_pos ha]
  exact read_put h a v b

/-- A write leaves every other byte alone, wherever it goes. -/
theorem read_write_ne {m : Memory} (h : m.wf = true) (a : Nat) (v : Byte) {b : Nat} (hb : b ≠ a) :
    (m.write a v).read b = m.read b := by
  rw [Memory.write]
  split
  · rw [read_put h, if_neg hb]
  · rfl

theorem wf_memWrite {m : Memory} (h : m.wf = true) (a n v : Nat) : (m.memWrite a n v).wf = true := by
  induction n generalizing m a v with
  | zero => exact h
  | succ n ih => exact ih (wf_write h a _) _ _

theorem read_head {a : Nat} {v : Byte} {m : Memory} : Memory.read ((a, v) :: m) a = v := by simp [Memory.read]

/-- Canonical listings that read alike are equal data. -/
theorem ext_of_read {low : Nat} {m n : Memory} (hm : Memory.wfFrom low m = true) (hn : Memory.wfFrom low n = true)
    (h : ∀ a, Memory.read m a = Memory.read n a) : m = n := by
  induction m generalizing low n with
  | nil =>
    cases n with
    | nil => rfl
    | cons cell n =>
      obtain ⟨b, w⟩ := cell
      have := (wfFrom_cons.1 hn).2.2.1
      exact absurd ((h b).trans read_head).symm this
  | cons cell m ih =>
    obtain ⟨a, v⟩ := cell
    have hm' := wfFrom_cons.1 hm
    cases n with
    | nil => exact absurd (read_head.symm.trans (h a)) hm'.2.2.1
    | cons cell' n =>
      obtain ⟨b, w⟩ := cell'
      have hn' := wfFrom_cons.1 hn
      have hab : a = b := by
        rcases Nat.lt_trichotomy a b with hlt | heq | hgt
        · have := h a
          rw [read_head, Memory.read, if_neg (by omega), read_below hn'.2.2.2 (by omega)] at this
          exact absurd this hm'.2.2.1
        · exact heq
        · have := h b
          rw [read_head, Memory.read, if_neg (by omega), read_below hm'.2.2.2 (by omega)] at this
          exact absurd this.symm hn'.2.2.1
      subst hab
      have hv : v = w := read_head.symm.trans ((h a).trans read_head)
      subst hv
      rw [ih hm'.2.2.2 hn'.2.2.2]
      intro c
      by_cases hc : c ≤ a
      · rw [read_below hm'.2.2.2 (by omega), read_below hn'.2.2.2 (by omega)]
      · have := h c
        rwa [Memory.read, if_neg (by omega), Memory.read, if_neg (by omega)] at this

end Memory

theorem wf_writeZeros {m : Memory} (h : m.wf = true) (l : List Nat) :
    Memory.wf (l.foldl (fun m i => m.write i 0) m) = true := by
  induction l generalizing m with
  | nil => exact h
  | cons i l ih => exact ih (Memory.wf_write h i 0)

theorem read_writeZeros {m : Memory} (h : m.wf = true) (l : List Nat) (hl : ∀ i ∈ l, i < Config.bufferSize) (b : Nat) :
    Memory.read (l.foldl (fun m i => m.write i 0) m) b = if b ∈ l then 0 else m.read b := by
  induction l generalizing m with
  | nil => simp
  | cons i l ih =>
    rw [List.foldl_cons, ih (Memory.wf_write h i 0) (fun j hj => hl j (by simp [hj])),
      Memory.read_write h (hl i (by simp))]
    by_cases hb : b = i <;> simp [hb]

theorem wf_zeroFill {m : Memory} (h : m.wf = true) (off rate : Nat) : Memory.wf (zeroFill m off rate) = true :=
  wf_writeZeros h _

theorem wf_orByte {m : Memory} (h : m.wf = true) (i : Nat) (bits : Byte) : Memory.wf (orByte m i bits) = true :=
  Memory.wf_write h _ _

/-- Padding keeps the canonical form. -/
theorem wf_padBlock {m : Memory} (h : m.wf = true) (off rate : Nat) : Memory.wf (padBlock m off rate) = true :=
  wf_orByte (wf_orByte (wf_zeroFill h off rate) _ _) _ _

theorem read_zeroFill {m : Memory} (h : m.wf = true) {off rate : Nat} (hr : rate ≤ Config.bufferSize) (b : Nat) :
    Memory.read (zeroFill m off rate) b = if off ≤ b ∧ b < rate then 0 else m.read b := by
  rw [zeroFill, read_writeZeros h]
  · congr 1
    rw [List.mem_range'_1]
    exact propext ⟨fun ⟨h1, h2⟩ => ⟨h1, by omega⟩, fun ⟨h1, h2⟩ => ⟨h1, by omega⟩⟩
  · intro i hi
    rw [List.mem_range'_1] at hi
    omega

theorem read_orByte {m : Memory} (h : m.wf = true) {i : Nat} (hi : i < Config.bufferSize) (bits : Byte) (b : Nat) :
    Memory.read (orByte m i bits) b = if b = i then m.read i ||| bits else m.read b :=
  Memory.read_write h hi _ b

/-- Every byte of the padded buffer: the message below the offset, then the padding, and nothing above the rate. -/
theorem read_padBlock {m : Memory} (h : m.wf = true) {off rate : Nat} (ho : off < rate) (hr : rate ≤ Config.bufferSize)
    (b : Nat) :
    Memory.read (padBlock m off rate) b =
      if off ≤ b ∧ b < rate then
        (if b = off then Config.domainByte else 0) ||| (if b = rate - 1 then Config.lastPadByte else 0)
      else m.read b := by
  have hz := wf_zeroFill h off rate
  rw [padBlock, read_orByte (wf_orByte hz _ _) (by omega), read_orByte hz (by omega), read_orByte hz (by omega),
    read_zeroFill h hr, read_zeroFill h hr, read_zeroFill h hr]
  by_cases hb : b = rate - 1
  · subst hb
    rw [if_pos rfl, if_pos (show off ≤ rate - 1 ∧ rate - 1 < rate by omega), if_pos rfl]
    by_cases ho' : rate - 1 = off
    · simp [ho', ho]
    · simp [ho']
      omega
  · rw [if_neg hb]
    by_cases ho' : b = off
    · subst ho'
      simp [ho, hb]
    · simp [ho', hb]

/-- At the last byte of the block both pad bits land in the same byte, 0x86. -/
theorem domain_or_last : Config.domainByte ||| Config.lastPadByte = 0x86 := by decide

end Sys2Proof.Machine
end

