-- ==== Sys2Proof/Laws/PerInstr.lean ====
section
/-! SUPPORT. The statement about every instruction as syntax: its word selects its row of the opcode table (R68). -/

namespace Sys2Proof.Laws.EncodeSelectsRow

/-- The word of a well-formed command meets its row's match and mask. -/
def Statement (i : Instr) : Prop := i.wellFormed = true → encode i &&& i.rowMask = i.rowMatch

theorem init (hp : Bool) (bitsize : Nat) : Statement (.init hp bitsize) := by
  intro _
  apply BitVec.eq_of_getLsbD_eq
  intro k hk
  interval_cases k <;> cases hp <;>
    (simp only [encode, packWord, BitVec.getLsbD_and, BitVec.getLsbD_append]; simp [Instr.rowMask, Instr.rowMatch])

theorem update (hp bp : Bool) (length : Nat) : Statement (.update hp bp length) := by
  intro _
  apply BitVec.eq_of_getLsbD_eq
  intro k hk
  interval_cases k <;> cases hp <;> cases bp <;>
    (simp only [encode, packWord, BitVec.getLsbD_and, BitVec.getLsbD_append]; simp [Instr.rowMask, Instr.rowMatch])

theorem finalize (hp bp : Bool) : Statement (.finalize hp bp) := by
  intro _
  cases hp <;> cases bp <;> decide

end Sys2Proof.Laws.EncodeSelectsRow
end

