-- ==== Sys2Proof/Laws/State.lean ====
section
/-! SUPPORT. What each named update of the state leaves in each field; every later proof cites these and unfolds no record
update. -/

namespace Sys2Proof.Machine

variable (s : State)

@[simp] theorem recordFault_lanes : s.recordFault.lanes = s.lanes := rfl
@[simp] theorem recordFault_rateBytes : s.recordFault.rateBytes = s.rateBytes := rfl
@[simp] theorem recordFault_blockBuffer : s.recordFault.blockBuffer = s.blockBuffer := rfl
@[simp] theorem recordFault_bufferOffset : s.recordFault.bufferOffset = s.bufferOffset := rfl
@[simp] theorem recordFault_phase : s.recordFault.phase = s.phase := rfl
@[simp] theorem recordFault_statusOk : s.recordFault.statusOk = s.statusOk := rfl
@[simp] theorem recordFault_statusErr : s.recordFault.statusErr = s.statusErr := rfl
@[simp] theorem recordFault_engine : s.recordFault.engine = s.engine := rfl
@[simp] theorem recordFault_faultMark : s.recordFault.faultMark = true := rfl
@[simp] theorem recordFault_channel : s.recordFault.channel = s.channel := rfl
@[simp] theorem recordFault_payload : s.recordFault.payload = s.payload := rfl
@[simp] theorem recordFault_digestOut : s.recordFault.digestOut = s.digestOut := rfl
@[simp] theorem recordFault_config : s.recordFault.config = s.config := rfl
@[simp] theorem recordFault_freeCount : s.recordFault.freeCount = s.freeCount := rfl

@[simp] theorem completed_lanes : s.completed.lanes = s.lanes := rfl
@[simp] theorem completed_rateBytes : s.completed.rateBytes = s.rateBytes := rfl
@[simp] theorem completed_blockBuffer : s.completed.blockBuffer = s.blockBuffer := rfl
@[simp] theorem completed_bufferOffset : s.completed.bufferOffset = s.bufferOffset := rfl
@[simp] theorem completed_phase : s.completed.phase = s.phase := rfl
@[simp] theorem completed_statusOk : s.completed.statusOk = true := rfl
@[simp] theorem completed_statusErr : s.completed.statusErr = errNone := rfl
@[simp] theorem completed_engine : s.completed.engine = s.engine := rfl
@[simp] theorem completed_faultMark : s.completed.faultMark = s.faultMark := rfl
@[simp] theorem completed_channel : s.completed.channel = s.channel := rfl
@[simp] theorem completed_payload : s.completed.payload = [] := rfl
@[simp] theorem completed_digestOut : s.completed.digestOut = s.digestOut := rfl
@[simp] theorem completed_config : s.completed.config = s.config := rfl
@[simp] theorem completed_freeCount : s.completed.freeCount = s.freeCount := rfl

@[simp] theorem failed_lanes (code : ErrCode) : (s.failed code).lanes = s.lanes := rfl
@[simp] theorem failed_rateBytes (code : ErrCode) : (s.failed code).rateBytes = s.rateBytes := rfl
@[simp] theorem failed_blockBuffer (code : ErrCode) : (s.failed code).blockBuffer = s.blockBuffer := rfl
@[simp] theorem failed_bufferOffset (code : ErrCode) : (s.failed code).bufferOffset = s.bufferOffset := rfl
@[simp] theorem failed_phase (code : ErrCode) : (s.failed code).phase = s.phase := rfl
@[simp] theorem failed_statusOk (code : ErrCode) : (s.failed code).statusOk = false := rfl
@[simp] theorem failed_statusErr (code : ErrCode) : (s.failed code).statusErr = code.code := rfl
@[simp] theorem failed_engine (code : ErrCode) : (s.failed code).engine = s.engine := rfl
@[simp] theorem failed_faultMark (code : ErrCode) : (s.failed code).faultMark = s.faultMark := rfl
@[simp] theorem failed_channel (code : ErrCode) : (s.failed code).channel = s.channel := rfl
@[simp] theorem failed_payload (code : ErrCode) : (s.failed code).payload = [] := rfl
@[simp] theorem failed_digestOut (code : ErrCode) : (s.failed code).digestOut = s.digestOut := rfl
@[simp] theorem failed_config (code : ErrCode) : (s.failed code).config = s.config := rfl
@[simp] theorem failed_freeCount (code : ErrCode) : (s.failed code).freeCount = s.freeCount := rfl

@[simp] theorem enterPhase_lanes (p : BitVec 2) : (s.enterPhase p).lanes = s.lanes := rfl
@[simp] theorem enterPhase_rateBytes (p : BitVec 2) : (s.enterPhase p).rateBytes = s.rateBytes := rfl
@[simp] theorem enterPhase_blockBuffer (p : BitVec 2) : (s.enterPhase p).blockBuffer = s.blockBuffer := rfl
@[simp] theorem enterPhase_bufferOffset (p : BitVec 2) : (s.enterPhase p).bufferOffset = s.bufferOffset := rfl
@[simp] theorem enterPhase_phase (p : BitVec 2) : (s.enterPhase p).phase = p := rfl
@[simp] theorem enterPhase_statusOk (p : BitVec 2) : (s.enterPhase p).statusOk = s.statusOk := rfl
@[simp] theorem enterPhase_statusErr (p : BitVec 2) : (s.enterPhase p).statusErr = s.statusErr := rfl
@[simp] theorem enterPhase_engine (p : BitVec 2) : (s.enterPhase p).engine = s.engine := rfl
@[simp] theorem enterPhase_faultMark (p : BitVec 2) : (s.enterPhase p).faultMark = s.faultMark := rfl
@[simp] theorem enterPhase_channel (p : BitVec 2) : (s.enterPhase p).channel = s.channel := rfl
@[simp] theorem enterPhase_payload (p : BitVec 2) : (s.enterPhase p).payload = s.payload := rfl
@[simp] theorem enterPhase_digestOut (p : BitVec 2) : (s.enterPhase p).digestOut = s.digestOut := rfl
@[simp] theorem enterPhase_config (p : BitVec 2) : (s.enterPhase p).config = s.config := rfl
@[simp] theorem enterPhase_freeCount (p : BitVec 2) : (s.enterPhase p).freeCount = s.freeCount := rfl

@[simp] theorem zeroHashState_lanes : s.zeroHashState.lanes = Vector.replicate 25 0 := rfl
@[simp] theorem zeroHashState_rateBytes : s.zeroHashState.rateBytes = 0 := rfl
@[simp] theorem zeroHashState_blockBuffer : s.zeroHashState.blockBuffer = [] := rfl
@[simp] theorem zeroHashState_bufferOffset : s.zeroHashState.bufferOffset = 0 := rfl
@[simp] theorem zeroHashState_phase : s.zeroHashState.phase = s.phase := rfl
@[simp] theorem zeroHashState_statusOk : s.zeroHashState.statusOk = s.statusOk := rfl
@[simp] theorem zeroHashState_statusErr : s.zeroHashState.statusErr = s.statusErr := rfl
@[simp] theorem zeroHashState_engine : s.zeroHashState.engine = s.engine := rfl
@[simp] theorem zeroHashState_faultMark : s.zeroHashState.faultMark = s.faultMark := rfl
@[simp] theorem zeroHashState_channel : s.zeroHashState.channel = s.channel := rfl
@[simp] theorem zeroHashState_payload : s.zeroHashState.payload = s.payload := rfl
@[simp] theorem zeroHashState_digestOut : s.zeroHashState.digestOut = s.digestOut := rfl
@[simp] theorem zeroHashState_config : s.zeroHashState.config = s.config := rfl
@[simp] theorem zeroHashState_freeCount : s.zeroHashState.freeCount = s.freeCount := rfl

@[simp] theorem clobberEngine_lanes : s.clobberEngine.lanes = s.lanes := rfl
@[simp] theorem clobberEngine_rateBytes : s.clobberEngine.rateBytes = s.rateBytes := rfl
@[simp] theorem clobberEngine_blockBuffer : s.clobberEngine.blockBuffer = s.blockBuffer := rfl
@[simp] theorem clobberEngine_bufferOffset : s.clobberEngine.bufferOffset = s.bufferOffset := rfl
@[simp] theorem clobberEngine_phase : s.clobberEngine.phase = s.phase := rfl
@[simp] theorem clobberEngine_statusOk : s.clobberEngine.statusOk = s.statusOk := rfl
@[simp] theorem clobberEngine_statusErr : s.clobberEngine.statusErr = s.statusErr := rfl
@[simp] theorem clobberEngine_engine : s.clobberEngine.engine = Config.freeEngine s.freeCount := rfl
@[simp] theorem clobberEngine_faultMark : s.clobberEngine.faultMark = s.faultMark := rfl
@[simp] theorem clobberEngine_channel : s.clobberEngine.channel = s.channel := rfl
@[simp] theorem clobberEngine_payload : s.clobberEngine.payload = s.payload := rfl
@[simp] theorem clobberEngine_digestOut : s.clobberEngine.digestOut = s.digestOut := rfl
@[simp] theorem clobberEngine_config : s.clobberEngine.config = s.config := rfl
@[simp] theorem clobberEngine_freeCount : s.clobberEngine.freeCount = s.freeCount + 1 := rfl

@[simp] theorem storeByte_lanes (b : Byte) : (s.storeByte b).lanes = s.lanes := rfl
@[simp] theorem storeByte_rateBytes (b : Byte) : (s.storeByte b).rateBytes = s.rateBytes := rfl
@[simp] theorem storeByte_blockBuffer (b : Byte) : (s.storeByte b).blockBuffer = s.blockBuffer.write s.bufferOffset.toNat b := rfl
@[simp] theorem storeByte_bufferOffset (b : Byte) : (s.storeByte b).bufferOffset = s.bufferOffset + 1 := rfl
@[simp] theorem storeByte_phase (b : Byte) : (s.storeByte b).phase = s.phase := rfl
@[simp] theorem storeByte_statusOk (b : Byte) : (s.storeByte b).statusOk = s.statusOk := rfl
@[simp] theorem storeByte_statusErr (b : Byte) : (s.storeByte b).statusErr = s.statusErr := rfl
@[simp] theorem storeByte_engine (b : Byte) : (s.storeByte b).engine = s.engine := rfl
@[simp] theorem storeByte_faultMark (b : Byte) : (s.storeByte b).faultMark = s.faultMark := rfl
@[simp] theorem storeByte_channel (b : Byte) : (s.storeByte b).channel = s.channel := rfl
@[simp] theorem storeByte_payload (b : Byte) : (s.storeByte b).payload = s.payload := rfl
@[simp] theorem storeByte_digestOut (b : Byte) : (s.storeByte b).digestOut = s.digestOut := rfl
@[simp] theorem storeByte_config (b : Byte) : (s.storeByte b).config = s.config := rfl
@[simp] theorem storeByte_freeCount (b : Byte) : (s.storeByte b).freeCount = s.freeCount := rfl

@[simp] theorem emit_lanes (bytes : List Byte) : (s.emit bytes).lanes = s.lanes := rfl
@[simp] theorem emit_rateBytes (bytes : List Byte) : (s.emit bytes).rateBytes = s.rateBytes := rfl
@[simp] theorem emit_blockBuffer (bytes : List Byte) : (s.emit bytes).blockBuffer = s.blockBuffer := rfl
@[simp] theorem emit_bufferOffset (bytes : List Byte) : (s.emit bytes).bufferOffset = s.bufferOffset := rfl
@[simp] theorem emit_phase (bytes : List Byte) : (s.emit bytes).phase = s.phase := rfl
@[simp] theorem emit_statusOk (bytes : List Byte) : (s.emit bytes).statusOk = s.statusOk := rfl
@[simp] theorem emit_statusErr (bytes : List Byte) : (s.emit bytes).statusErr = s.statusErr := rfl
@[simp] theorem emit_engine (bytes : List Byte) : (s.emit bytes).engine = s.engine := rfl
@[simp] theorem emit_faultMark (bytes : List Byte) : (s.emit bytes).faultMark = s.faultMark := rfl
@[simp] theorem emit_channel (bytes : List Byte) : (s.emit bytes).channel = s.channel := rfl
@[simp] theorem emit_payload (bytes : List Byte) : (s.emit bytes).payload = s.payload := rfl
@[simp] theorem emit_digestOut (bytes : List Byte) : (s.emit bytes).digestOut = s.digestOut ++ bytes := rfl
@[simp] theorem emit_config (bytes : List Byte) : (s.emit bytes).config = s.config := rfl
@[simp] theorem emit_freeCount (bytes : List Byte) : (s.emit bytes).freeCount = s.freeCount := rfl

@[simp] theorem absorbBlock_lanes : s.absorbBlock.lanes = keccakF (xorBlock s.lanes s.blockBuffer s.rateBytes.toNat) := rfl
@[simp] theorem absorbBlock_rateBytes : s.absorbBlock.rateBytes = s.rateBytes := rfl
@[simp] theorem absorbBlock_blockBuffer : s.absorbBlock.blockBuffer = s.blockBuffer := rfl
@[simp] theorem absorbBlock_bufferOffset : s.absorbBlock.bufferOffset = 0 := rfl
@[simp] theorem absorbBlock_phase : s.absorbBlock.phase = s.phase := rfl
@[simp] theorem absorbBlock_statusOk : s.absorbBlock.statusOk = s.statusOk := rfl
@[simp] theorem absorbBlock_statusErr : s.absorbBlock.statusErr = s.statusErr := rfl
@[simp] theorem absorbBlock_engine : s.absorbBlock.engine = Config.freeEngine s.freeCount := rfl
@[simp] theorem absorbBlock_faultMark : s.absorbBlock.faultMark = s.faultMark := rfl
@[simp] theorem absorbBlock_channel : s.absorbBlock.channel = s.channel := rfl
@[simp] theorem absorbBlock_payload : s.absorbBlock.payload = s.payload := rfl
@[simp] theorem absorbBlock_digestOut : s.absorbBlock.digestOut = s.digestOut := rfl
@[simp] theorem absorbBlock_config : s.absorbBlock.config = s.config := rfl
@[simp] theorem absorbBlock_freeCount : s.absorbBlock.freeCount = s.freeCount + 1 := rfl

@[simp] theorem pad_lanes : s.pad.lanes = s.lanes := rfl
@[simp] theorem pad_rateBytes : s.pad.rateBytes = s.rateBytes := rfl
@[simp] theorem pad_blockBuffer : s.pad.blockBuffer = padBlock s.blockBuffer s.bufferOffset.toNat s.rateBytes.toNat := rfl
@[simp] theorem pad_bufferOffset : s.pad.bufferOffset = s.bufferOffset := rfl
@[simp] theorem pad_phase : s.pad.phase = s.phase := rfl
@[simp] theorem pad_statusOk : s.pad.statusOk = s.statusOk := rfl
@[simp] theorem pad_statusErr : s.pad.statusErr = s.statusErr := rfl
@[simp] theorem pad_engine : s.pad.engine = s.engine := rfl
@[simp] theorem pad_faultMark : s.pad.faultMark = s.faultMark := rfl
@[simp] theorem pad_channel : s.pad.channel = s.channel := rfl
@[simp] theorem pad_payload : s.pad.payload = s.payload := rfl
@[simp] theorem pad_digestOut : s.pad.digestOut = s.digestOut := rfl
@[simp] theorem pad_config : s.pad.config = s.config := rfl
@[simp] theorem pad_freeCount : s.pad.freeCount = s.freeCount := rfl

@[simp] theorem assertReset_lanes : s.assertReset.lanes = Vector.replicate 25 0 := rfl
@[simp] theorem assertReset_rateBytes : s.assertReset.rateBytes = 0 := rfl
@[simp] theorem assertReset_blockBuffer : s.assertReset.blockBuffer = [] := rfl
@[simp] theorem assertReset_bufferOffset : s.assertReset.bufferOffset = 0 := rfl
@[simp] theorem assertReset_phase : s.assertReset.phase = phaseUninit := rfl
@[simp] theorem assertReset_statusOk : s.assertReset.statusOk = false := rfl
@[simp] theorem assertReset_statusErr : s.assertReset.statusErr = errNone := rfl
@[simp] theorem assertReset_engine : s.assertReset.engine = Config.freeEngine s.freeCount := rfl
@[simp] theorem assertReset_faultMark : s.assertReset.faultMark = s.faultMark := rfl
@[simp] theorem assertReset_channel : s.assertReset.channel = s.channel := rfl
@[simp] theorem assertReset_payload : s.assertReset.payload = [] := rfl
@[simp] theorem assertReset_digestOut : s.assertReset.digestOut = s.digestOut := rfl
@[simp] theorem assertReset_config : s.assertReset.config = s.config := rfl
@[simp] theorem assertReset_freeCount : s.assertReset.freeCount = s.freeCount + 1 := rfl

@[simp] theorem accept_lanes (payload : List Byte) (rest : List HostMove) : (s.accept payload rest).lanes = s.lanes := rfl
@[simp] theorem accept_rateBytes (payload : List Byte) (rest : List HostMove) : (s.accept payload rest).rateBytes = s.rateBytes := rfl
@[simp] theorem accept_blockBuffer (payload : List Byte) (rest : List HostMove) : (s.accept payload rest).blockBuffer = s.blockBuffer := rfl
@[simp] theorem accept_bufferOffset (payload : List Byte) (rest : List HostMove) : (s.accept payload rest).bufferOffset = s.bufferOffset := rfl
@[simp] theorem accept_phase (payload : List Byte) (rest : List HostMove) : (s.accept payload rest).phase = s.phase := rfl
@[simp] theorem accept_statusOk (payload : List Byte) (rest : List HostMove) : (s.accept payload rest).statusOk = s.statusOk := rfl
@[simp] theorem accept_statusErr (payload : List Byte) (rest : List HostMove) : (s.accept payload rest).statusErr = s.statusErr := rfl
@[simp] theorem accept_engine (payload : List Byte) (rest : List HostMove) : (s.accept payload rest).engine = s.engine := rfl
@[simp] theorem accept_faultMark (payload : List Byte) (rest : List HostMove) : (s.accept payload rest).faultMark = s.faultMark := rfl
@[simp] theorem accept_channel (payload : List Byte) (rest : List HostMove) : (s.accept payload rest).channel = rest := rfl
@[simp] theorem accept_payload (payload : List Byte) (rest : List HostMove) : (s.accept payload rest).payload = payload := rfl
@[simp] theorem accept_digestOut (payload : List Byte) (rest : List HostMove) : (s.accept payload rest).digestOut = s.digestOut := rfl
@[simp] theorem accept_config (payload : List Byte) (rest : List HostMove) : (s.accept payload rest).config = s.config := rfl
@[simp] theorem accept_freeCount (payload : List Byte) (rest : List HostMove) : (s.accept payload rest).freeCount = s.freeCount := rfl

@[simp] theorem moveTaken_lanes (rest : List HostMove) : (s.moveTaken rest).lanes = s.lanes := rfl
@[simp] theorem moveTaken_rateBytes (rest : List HostMove) : (s.moveTaken rest).rateBytes = s.rateBytes := rfl
@[simp] theorem moveTaken_blockBuffer (rest : List HostMove) : (s.moveTaken rest).blockBuffer = s.blockBuffer := rfl
@[simp] theorem moveTaken_bufferOffset (rest : List HostMove) : (s.moveTaken rest).bufferOffset = s.bufferOffset := rfl
@[simp] theorem moveTaken_phase (rest : List HostMove) : (s.moveTaken rest).phase = s.phase := rfl
@[simp] theorem moveTaken_statusOk (rest : List HostMove) : (s.moveTaken rest).statusOk = s.statusOk := rfl
@[simp] theorem moveTaken_statusErr (rest : List HostMove) : (s.moveTaken rest).statusErr = s.statusErr := rfl
@[simp] theorem moveTaken_engine (rest : List HostMove) : (s.moveTaken rest).engine = s.engine := rfl
@[simp] theorem moveTaken_faultMark (rest : List HostMove) : (s.moveTaken rest).faultMark = s.faultMark := rfl
@[simp] theorem moveTaken_channel (rest : List HostMove) : (s.moveTaken rest).channel = rest := rfl
@[simp] theorem moveTaken_payload (rest : List HostMove) : (s.moveTaken rest).payload = s.payload := rfl
@[simp] theorem moveTaken_digestOut (rest : List HostMove) : (s.moveTaken rest).digestOut = s.digestOut := rfl
@[simp] theorem moveTaken_config (rest : List HostMove) : (s.moveTaken rest).config = s.config := rfl
@[simp] theorem moveTaken_freeCount (rest : List HostMove) : (s.moveTaken rest).freeCount = s.freeCount := rfl

@[simp] theorem takeDigest_lanes (count : Nat) : (s.takeDigest count).lanes = s.lanes := rfl
@[simp] theorem takeDigest_rateBytes (count : Nat) : (s.takeDigest count).rateBytes = s.rateBytes := rfl
@[simp] theorem takeDigest_blockBuffer (count : Nat) : (s.takeDigest count).blockBuffer = s.blockBuffer := rfl
@[simp] theorem takeDigest_bufferOffset (count : Nat) : (s.takeDigest count).bufferOffset = s.bufferOffset := rfl
@[simp] theorem takeDigest_phase (count : Nat) : (s.takeDigest count).phase = s.phase := rfl
@[simp] theorem takeDigest_statusOk (count : Nat) : (s.takeDigest count).statusOk = s.statusOk := rfl
@[simp] theorem takeDigest_statusErr (count : Nat) : (s.takeDigest count).statusErr = s.statusErr := rfl
@[simp] theorem takeDigest_engine (count : Nat) : (s.takeDigest count).engine = s.engine := rfl
@[simp] theorem takeDigest_faultMark (count : Nat) : (s.takeDigest count).faultMark = s.faultMark := rfl
@[simp] theorem takeDigest_channel (count : Nat) : (s.takeDigest count).channel = s.channel := rfl
@[simp] theorem takeDigest_payload (count : Nat) : (s.takeDigest count).payload = s.payload := rfl
@[simp] theorem takeDigest_digestOut (count : Nat) : (s.takeDigest count).digestOut = s.digestOut.drop count := rfl
@[simp] theorem takeDigest_config (count : Nat) : (s.takeDigest count).config = s.config := rfl
@[simp] theorem takeDigest_freeCount (count : Nat) : (s.takeDigest count).freeCount = s.freeCount := rfl

@[simp] theorem issue_lanes (word : Word) (payload : List Byte) : (s.issue word payload).lanes = s.lanes := rfl
@[simp] theorem issue_rateBytes (word : Word) (payload : List Byte) : (s.issue word payload).rateBytes = s.rateBytes := rfl
@[simp] theorem issue_blockBuffer (word : Word) (payload : List Byte) : (s.issue word payload).blockBuffer = s.blockBuffer := rfl
@[simp] theorem issue_bufferOffset (word : Word) (payload : List Byte) : (s.issue word payload).bufferOffset = s.bufferOffset := rfl
@[simp] theorem issue_phase (word : Word) (payload : List Byte) : (s.issue word payload).phase = s.phase := rfl
@[simp] theorem issue_statusOk (word : Word) (payload : List Byte) : (s.issue word payload).statusOk = s.statusOk := rfl
@[simp] theorem issue_statusErr (word : Word) (payload : List Byte) : (s.issue word payload).statusErr = s.statusErr := rfl
@[simp] theorem issue_engine (word : Word) (payload : List Byte) : (s.issue word payload).engine = s.engine := rfl
@[simp] theorem issue_faultMark (word : Word) (payload : List Byte) : (s.issue word payload).faultMark = s.faultMark := rfl
@[simp] theorem issue_channel (word : Word) (payload : List Byte) : (s.issue word payload).channel = .transaction word payload :: s.channel := rfl
@[simp] theorem issue_payload (word : Word) (payload : List Byte) : (s.issue word payload).payload = s.payload := rfl
@[simp] theorem issue_digestOut (word : Word) (payload : List Byte) : (s.issue word payload).digestOut = s.digestOut := rfl
@[simp] theorem issue_config (word : Word) (payload : List Byte) : (s.issue word payload).config = s.config := rfl
@[simp] theorem issue_freeCount (word : Word) (payload : List Byte) : (s.issue word payload).freeCount = s.freeCount := rfl

end Sys2Proof.Machine
end

