-- ==== Sys2Proof/Laws/Sponge.lean ====
section
/-! SUPPORT. What UPDATE's loop keeps and changes, byte by byte and over a whole payload. -/

namespace Sys2Proof.Machine

/-- One turn of the loop either stores the byte, or stores it and flushes the full buffer. -/
theorem absorbByte_cases (s : State) (b : Byte) :
    (s.bufferOffset + 1 ≠ s.rateBytes ∧ s.absorbByte b = s.storeByte b) ∨
    (s.bufferOffset + 1 = s.rateBytes ∧ s.absorbByte b = (s.storeByte b).absorbBlock) := by
  by_cases h : s.bufferOffset + 1 = s.rateBytes
  · exact .inr ⟨h, if_pos h⟩
  · exact .inl ⟨h, if_neg h⟩

@[simp] theorem absorbByte_rateBytes (s : State) (b : Byte) : (s.absorbByte b).rateBytes = s.rateBytes := by
  rcases absorbByte_cases s b with ⟨-, h⟩ | ⟨-, h⟩ <;> simp [h]
@[simp] theorem absorbByte_phase (s : State) (b : Byte) : (s.absorbByte b).phase = s.phase := by
  rcases absorbByte_cases s b with ⟨-, h⟩ | ⟨-, h⟩ <;> simp [h]
@[simp] theorem absorbByte_statusOk (s : State) (b : Byte) : (s.absorbByte b).statusOk = s.statusOk := by
  rcases absorbByte_cases s b with ⟨-, h⟩ | ⟨-, h⟩ <;> simp [h]
@[simp] theorem absorbByte_statusErr (s : State) (b : Byte) : (s.absorbByte b).statusErr = s.statusErr := by
  rcases absorbByte_cases s b with ⟨-, h⟩ | ⟨-, h⟩ <;> simp [h]
@[simp] theorem absorbByte_faultMark (s : State) (b : Byte) : (s.absorbByte b).faultMark = s.faultMark := by
  rcases absorbByte_cases s b with ⟨-, h⟩ | ⟨-, h⟩ <;> simp [h]
@[simp] theorem absorbByte_channel (s : State) (b : Byte) : (s.absorbByte b).channel = s.channel := by
  rcases absorbByte_cases s b with ⟨-, h⟩ | ⟨-, h⟩ <;> simp [h]
@[simp] theorem absorbByte_payload (s : State) (b : Byte) : (s.absorbByte b).payload = s.payload := by
  rcases absorbByte_cases s b with ⟨-, h⟩ | ⟨-, h⟩ <;> simp [h]
@[simp] theorem absorbByte_digestOut (s : State) (b : Byte) : (s.absorbByte b).digestOut = s.digestOut := by
  rcases absorbByte_cases s b with ⟨-, h⟩ | ⟨-, h⟩ <;> simp [h]
@[simp] theorem absorbByte_config (s : State) (b : Byte) : (s.absorbByte b).config = s.config := by
  rcases absorbByte_cases s b with ⟨-, h⟩ | ⟨-, h⟩ <;> simp [h]
@[simp] theorem absorbByte_blockBuffer (s : State) (b : Byte) :
    (s.absorbByte b).blockBuffer = s.blockBuffer.write s.bufferOffset.toNat b := by
  rcases absorbByte_cases s b with ⟨-, h⟩ | ⟨-, h⟩ <;> simp [h]

@[simp] theorem absorbBytes_nil (s : State) : s.absorbBytes [] = s := rfl

@[simp] theorem absorbBytes_cons (s : State) (b : Byte) (data : List Byte) :
    s.absorbBytes (b :: data) = (s.absorbByte b).absorbBytes data := rfl

/-- The loop over two payloads one after the other is the loop over both (R119). -/
theorem absorbBytes_append (s : State) (a b : List Byte) :
    s.absorbBytes (a ++ b) = (s.absorbBytes a).absorbBytes b := List.foldl_append

/-- What one turn of the loop keeps, the whole loop keeps. -/
theorem absorbBytes_keeps {P : State → Prop} (h : ∀ s b, P s → P (s.absorbByte b)) {s : State} (hs : P s)
    (data : List Byte) : P (s.absorbBytes data) := by
  induction data generalizing s with
  | nil => exact hs
  | cons b data ih => exact ih (h s b hs)

@[simp] theorem absorbBytes_rateBytes (s : State) (data : List Byte) :
    (s.absorbBytes data).rateBytes = s.rateBytes :=
  absorbBytes_keeps (P := fun t => t.rateBytes = s.rateBytes) (by simp) rfl data
@[simp] theorem absorbBytes_phase (s : State) (data : List Byte) : (s.absorbBytes data).phase = s.phase :=
  absorbBytes_keeps (P := fun t => t.phase = s.phase) (by simp) rfl data
@[simp] theorem absorbBytes_statusOk (s : State) (data : List Byte) : (s.absorbBytes data).statusOk = s.statusOk :=
  absorbBytes_keeps (P := fun t => t.statusOk = s.statusOk) (by simp) rfl data
@[simp] theorem absorbBytes_statusErr (s : State) (data : List Byte) :
    (s.absorbBytes data).statusErr = s.statusErr :=
  absorbBytes_keeps (P := fun t => t.statusErr = s.statusErr) (by simp) rfl data
@[simp] theorem absorbBytes_faultMark (s : State) (data : List Byte) :
    (s.absorbBytes data).faultMark = s.faultMark :=
  absorbBytes_keeps (P := fun t => t.faultMark = s.faultMark) (by simp) rfl data
@[simp] theorem absorbBytes_channel (s : State) (data : List Byte) : (s.absorbBytes data).channel = s.channel :=
  absorbBytes_keeps (P := fun t => t.channel = s.channel) (by simp) rfl data
@[simp] theorem absorbBytes_payload (s : State) (data : List Byte) : (s.absorbBytes data).payload = s.payload :=
  absorbBytes_keeps (P := fun t => t.payload = s.payload) (by simp) rfl data
@[simp] theorem absorbBytes_digestOut (s : State) (data : List Byte) :
    (s.absorbBytes data).digestOut = s.digestOut :=
  absorbBytes_keeps (P := fun t => t.digestOut = s.digestOut) (by simp) rfl data
@[simp] theorem absorbBytes_config (s : State) (data : List Byte) : (s.absorbBytes data).config = s.config :=
  absorbBytes_keeps (P := fun t => t.config = s.config) (by simp) rfl data

theorem absorbBytes_bufferWf {s : State} (h : s.blockBuffer.wf = true) (data : List Byte) :
    (s.absorbBytes data).blockBuffer.wf = true :=
  absorbBytes_keeps (P := fun t => t.blockBuffer.wf = true) (fun s b hs => by simp [Memory.wf_write hs]) h data

/-- A rate is a positive whole number of lanes inside the buffer and the lane array. -/
theorem legalRate_bounds {r : Nat} (h : legalRate r = true) : 0 < r ∧ r ≤ Config.bufferSize ∧ r % 8 = 0 := by
  simp only [legalRate, Bool.or_eq_true, beq_iff_eq] at h
  rcases h with ((h | h) | h) | h <;> subst h <;> decide

theorem spongeOk_iff {s : State} :
    s.spongeOk = true ↔ legalRate s.rateBytes.toNat = true ∧ s.bufferOffset.toNat < s.rateBytes.toNat := by
  simp [State.spongeOk]

/-- The offset after one byte: one more, or 0 where that reaches the rate (R23, R115). -/
theorem absorbByte_offset {s : State} (h : s.spongeOk = true) (b : Byte) :
    (s.absorbByte b).bufferOffset.toNat =
      if s.bufferOffset.toNat + 1 = s.rateBytes.toNat then 0 else s.bufferOffset.toNat + 1 := by
  obtain ⟨-, hlt⟩ := spongeOk_iff.1 h
  have hn : (s.bufferOffset + 1).toNat = s.bufferOffset.toNat + 1 := by
    have := s.rateBytes.isLt
    rw [BitVec.toNat_add, show (1 : BitVec 8).toNat = 1 from rfl]
    omega
  rcases absorbByte_cases s b with ⟨hne, h⟩ | ⟨heq, h⟩
  · rw [h, storeByte_bufferOffset, hn, if_neg]
    intro hc
    exact hne (BitVec.eq_of_toNat_eq (hn.trans hc))
  · rw [h, absorbBlock_bufferOffset, if_pos]
    · rfl
    · rw [← hn, heq]

theorem spongeOk_absorbByte {s : State} (h : s.spongeOk = true) (b : Byte) : (s.absorbByte b).spongeOk = true := by
  obtain ⟨hr, hlt⟩ := spongeOk_iff.1 h
  have := legalRate_bounds hr
  refine spongeOk_iff.2 ⟨by simpa using hr, ?_⟩
  rw [absorbByte_offset h, absorbByte_rateBytes]
  split <;> omega

theorem spongeOk_absorbBytes {s : State} (h : s.spongeOk = true) (data : List Byte) :
    (s.absorbBytes data).spongeOk = true :=
  absorbBytes_keeps (P := fun t => t.spongeOk = true) (fun _ b hs => spongeOk_absorbByte hs b) h data

/-- The loop writes below the rate only (R22). -/
theorem absorbByte_read_above {s : State} (hw : s.blockBuffer.wf = true) (h : s.spongeOk = true) (b : Byte) {a : Nat}
    (ha : s.rateBytes.toNat ≤ a) : (s.absorbByte b).blockBuffer.read a = s.blockBuffer.read a := by
  obtain ⟨-, hlt⟩ := spongeOk_iff.1 h
  rw [absorbByte_blockBuffer, Memory.read_write_ne hw _ _ (by omega)]

theorem absorbBytes_read_above {s : State} (hw : s.blockBuffer.wf = true) (h : s.spongeOk = true) (data : List Byte)
    {a : Nat} (ha : s.rateBytes.toNat ≤ a) : (s.absorbBytes data).blockBuffer.read a = s.blockBuffer.read a := by
  induction data generalizing s with
  | nil => rfl
  | cons b data ih =>
    rw [absorbBytes_cons, ih (by simp [Memory.wf_write hw]) (spongeOk_absorbByte h b) (by simpa using ha),
      absorbByte_read_above hw h b ha]

end Sys2Proof.Machine
end

