-- ==== Sys2Proof/Laws/Step.lean ====
section
/-! SUPPORT. What a step can do, said once: the inversion of the shared checks, of the three commands, of an illegal word and
of `step`. -/

namespace Sys2Proof.Machine

theorem impossibleState_eq_none {s : State} : impossibleState s = none ↔ Possible s := by
  constructor
  · intro h
    unfold impossibleState at h
    split at h
    · cases h
    · next h1 =>
      split at h
      · cases h
      · next h2 =>
        split at h
        · cases h
        · next h3 => exact ⟨by simpa using h1, h2, by simpa using h3⟩
  · intro h
    simp [impossibleState, h.unmarked, h.phaseLegal, h.errLegal]

/-- Being possible depends on the fault mark, PHASE and ERR alone. -/
theorem Possible.congr {s t : State} (h : Possible s) (h1 : t.faultMark = s.faultMark) (h2 : t.phase = s.phase)
    (h3 : t.statusErr = s.statusErr) : Possible t :=
  ⟨h1.trans h.unmarked, h2 ▸ h.phaseLegal, h3 ▸ h.errLegal⟩

theorem Possible.accept {s : State} (h : Possible s) (p : List Byte) (rest : List HostMove) :
    Possible (s.accept p rest) := h.congr rfl rfl rfl

theorem Possible.moveTaken {s : State} (h : Possible s) (rest : List HostMove) : Possible (s.moveTaken rest) :=
  h.congr rfl rfl rfl

theorem whenPossible_of_possible {s : State} (h : Possible s) (run : State → Result) : whenPossible s run = run s := by
  simp [whenPossible, impossibleState_eq_none.2 h]

theorem whenPossible_next {s t : State} {run : State → Result} (h : whenPossible s run = .next t) :
    Possible s ∧ run s = .next t := by
  unfold whenPossible at h
  split at h
  · cases h
  · next hn => exact ⟨impossibleState_eq_none.1 hn, h⟩

/-- A well-formed transaction in a possible state runs. -/
theorem transact_of_possible {n : Nat} {s : State} (hp : s.payload.length = n) (h : Possible s)
    (run : State → Result) : transact n s run = run s := by
  simp [transact, hp, whenPossible_of_possible h]

theorem transact_next {n : Nat} {s t : State} {run : State → Result} (h : transact n s run = .next t) :
    s.payload.length = n ∧ Possible s ∧ run s = .next t := by
  unfold transact at h
  split at h
  · next hp => exact ⟨hp, whenPossible_next h⟩
  · cases h

theorem whenReady_of_ready {s : State} (hr : s.phase = phaseReady) (h : s.spongeOk = true) (body : State → Result) :
    whenReady s body = body s := by
  simp [whenReady, hr, h]

theorem whenReady_next {s t : State} {body : State → Result} (h : whenReady s body = .next t) :
    (s.phase = phaseReady ∧ s.spongeOk = true ∧ body s = .next t) ∨
    (s.phase ≠ phaseReady ∧ s.config.seqGuard = true ∧ t = s.failed .sequenceError) := by
  unfold whenReady at h
  split at h
  · next hr =>
    split at h
    · next hs => exact .inl ⟨hr, hs, h⟩
    · cases h
  · next hr =>
    split at h
    · next hg => exact .inr ⟨hr, hg, by simpa [raiseError] using h.symm⟩
    · cases h

/-- What INIT can do when it completes (R113, R114). -/
theorem execInit_next {hp : Bool} {bitsize : Nat} {s t : State} (h : execInit hp bitsize s = .next t) :
    s.payload = [] ∧ Possible s ∧
    ((hp = true ∧ supportedBitsize bitsize = true ∧ t = (initBody bitsize s).completed) ∨
     ((hp = false ∨ supportedBitsize bitsize = false) ∧ t = s.failed .invalidArgument)) := by
  obtain ⟨hl, hpos, h⟩ := transact_next h
  refine ⟨List.eq_nil_of_length_eq_zero hl, hpos, ?_⟩
  split at h
  · next h1 => exact .inr ⟨.inl h1, by simpa [raiseError] using h.symm⟩
  · next h1 =>
    split at h
    · next h2 => exact .inr ⟨.inr h2, by simpa [raiseError] using h.symm⟩
    · next h2 => exact .inl ⟨by simpa using h1, by simpa using h2, by simpa [succeed] using h.symm⟩

/-- What UPDATE can do when it completes (R115 to R118). -/
theorem execUpdate_next {hp bp : Bool} {length : Nat} {s t : State} (h : execUpdate hp bp length s = .next t) :
    s.payload.length = (Instr.update hp bp length).announced ∧ Possible s ∧
    ((hp = true ∧ (bp = true ∨ length = 0) ∧ s.phase = phaseReady ∧ s.spongeOk = true ∧
        t = (s.absorbBytes s.payload).completed) ∨
     (s.phase ≠ phaseReady ∧ s.config.seqGuard = true ∧ t = s.failed .sequenceError) ∨
     ((hp = false ∨ (bp = false ∧ 0 < length)) ∧ t = s.failed .invalidArgument)) := by
  obtain ⟨hl, hpos, h⟩ := transact_next h
  refine ⟨hl, hpos, ?_⟩
  split at h
  · next h1 => exact .inr (.inr ⟨.inl h1, by simpa [raiseError] using h.symm⟩)
  · next h1 =>
    split at h
    · next h2 => exact .inr (.inr ⟨.inr h2, by simpa [raiseError] using h.symm⟩)
    · next h2 =>
      rcases whenReady_next h with ⟨hr, hs, hb⟩ | hf
      · refine .inl ⟨by simpa using h1, ?_, hr, hs, by simpa [succeed] using hb.symm⟩
        cases bp
        · exact .inr (by simpa using h2)
        · exact .inl rfl
      · exact .inr (.inl hf)

/-- What FINALIZE can do when it completes (R118, R120, R127). -/
theorem execFinalize_next {hp bp : Bool} {s t : State} (h : execFinalize hp bp s = .next t) :
    s.payload = [] ∧ Possible s ∧
    ((hp = true ∧ bp = true ∧ s.phase = phaseReady ∧ s.spongeOk = true ∧ t = (finalizeBody s).completed) ∨
     (s.phase ≠ phaseReady ∧ s.config.seqGuard = true ∧ t = s.failed .sequenceError) ∨
     ((hp = false ∨ bp = false) ∧ t = s.failed .invalidArgument)) := by
  obtain ⟨hl, hpos, h⟩ := transact_next h
  refine ⟨List.eq_nil_of_length_eq_zero hl, hpos, ?_⟩
  split at h
  · next h1 => exact .inr (.inr ⟨.inl h1, by simpa [raiseError] using h.symm⟩)
  · next h1 =>
    split at h
    · next h2 => exact .inr (.inr ⟨.inr h2, by simpa [raiseError] using h.symm⟩)
    · next h2 =>
      rcases whenReady_next h with ⟨hr, hs, hb⟩ | hf
      · exact .inl ⟨by simpa using h1, by simpa using h2, hr, hs, by simpa [succeed] using hb.symm⟩
      · exact .inr (.inl hf)

/-- What a word that is no command can do when it completes (R69 to R71). -/
theorem execIllegal_next {n : Nat} {s t : State} (h : execIllegal n s = .next t) :
    s.payload.length = n ∧ Possible s ∧ t = s.failed .illegalCommand := by
  obtain ⟨hl, hpos, h⟩ := transact_next h
  exact ⟨hl, hpos, by simpa [raiseError] using h.symm⟩

/-- What a command can do when it completes: fail with STATUS alone written, or run one of the three bodies. -/
theorem exec_next {i : Instr} {s t : State} (h : exec i s = .next t) :
    s.payload.length = i.announced ∧ Possible s ∧
    ((∃ code, t = s.failed code) ∨
     (∃ bitsize, i = .init true bitsize ∧ supportedBitsize bitsize = true ∧ t = (initBody bitsize s).completed) ∨
     (∃ bp length, i = .update true bp length ∧ (bp = true ∨ length = 0) ∧ s.phase = phaseReady ∧ s.spongeOk = true ∧
        t = (s.absorbBytes s.payload).completed) ∨
     (i = .finalize true true ∧ s.phase = phaseReady ∧ s.spongeOk = true ∧ t = (finalizeBody s).completed)) := by
  cases i with
  | init hp bitsize =>
    obtain ⟨hl, hpos, ⟨rfl, hb, rfl⟩ | ⟨-, rfl⟩⟩ := execInit_next h
    · exact ⟨by simp [hl, Instr.announced], hpos, .inr (.inl ⟨bitsize, rfl, hb, rfl⟩)⟩
    · exact ⟨by simp [hl, Instr.announced], hpos, .inl ⟨_, rfl⟩⟩
  | update hp bp length =>
    obtain ⟨hl, hpos, ⟨rfl, hb, hr, hs, rfl⟩ | ⟨-, -, rfl⟩ | ⟨-, rfl⟩⟩ := execUpdate_next h
    · exact ⟨hl, hpos, .inr (.inr (.inl ⟨bp, length, rfl, hb, hr, hs, rfl⟩))⟩
    · exact ⟨hl, hpos, .inl ⟨_, rfl⟩⟩
    · exact ⟨hl, hpos, .inl ⟨_, rfl⟩⟩
  | finalize hp bp =>
    obtain ⟨hl, hpos, ⟨rfl, rfl, hr, hs, rfl⟩ | ⟨-, -, rfl⟩ | ⟨-, rfl⟩⟩ := execFinalize_next h
    · exact ⟨by simp [hl, Instr.announced], hpos, .inr (.inr (.inr ⟨rfl, hr, hs, rfl⟩))⟩
    · exact ⟨by simp [hl, Instr.announced], hpos, .inl ⟨_, rfl⟩⟩
    · exact ⟨by simp [hl, Instr.announced], hpos, .inl ⟨_, rfl⟩⟩

/-- What a step can do when it answers a next state, one case per host move (R165, R178). -/
theorem step_next {s t : State} (h : step s = .next t) :
    (s.channel = [] ∧ t = s) ∨
    (∃ w p rest, s.channel = .transaction w p :: rest ∧
      ((∃ i, decode w = .ok i ∧ exec i (s.accept p rest) = .next t) ∨
       (∃ e, decode w = .error e ∧ execIllegal (announced w) (s.accept p rest) = .next t))) ∨
    (∃ rest, (s.channel = .reset :: rest ∨ ∃ w p, s.channel = .resetDuring w p :: rest) ∧
      t = (s.moveTaken rest).assertReset) ∨
    (∃ rest, s.channel = .readStatus :: rest ∧ Possible (s.moveTaken rest) ∧ t = s.moveTaken rest) ∨
    (∃ n rest, s.channel = .takeDigest n :: rest ∧ Possible (s.moveTaken rest) ∧
      t = (s.moveTaken rest).takeDigest n) := by
  unfold step nextMove at h
  split at h
  · next i u hm =>
    split at hm
    · cases hm
    · next w p rest hc =>
      split at hm
      · next j hd =>
        cases hm
        exact .inr (.inl ⟨w, p, rest, hc, .inl ⟨i, hd, h⟩⟩)
      · cases hm
    all_goals cases hm
  · next n u hm =>
    split at hm
    · cases hm
    · next w p rest hc =>
      split at hm
      · cases hm
      · next e hd =>
        cases hm
        exact .inr (.inl ⟨w, p, rest, hc, .inr ⟨e, hd, h⟩⟩)
    all_goals cases hm
  · next r hm =>
    split at hm
    · next hc =>
      cases hm
      cases h
      exact .inl ⟨hc, rfl⟩
    · split at hm <;> cases hm
    · next rest hc =>
      cases hm
      cases h
      exact .inr (.inr (.inl ⟨rest, .inl hc, rfl⟩))
    · next w p rest hc =>
      cases hm
      cases h
      exact .inr (.inr (.inl ⟨rest, .inr ⟨w, p, hc⟩, rfl⟩))
    · next rest hc =>
      cases hm
      obtain ⟨hp, h⟩ := whenPossible_next h
      cases h
      exact .inr (.inr (.inr (.inl ⟨rest, hc, hp, rfl⟩)))
    · next n rest hc =>
      cases hm
      obtain ⟨hp, h⟩ := whenPossible_next h
      cases h
      exact .inr (.inr (.inr (.inr ⟨n, rest, hc, hp, rfl⟩)))

/-- The step that accepts a command. -/
theorem step_command {s : State} {w : Word} {p : List Byte} {rest : List HostMove}
    (hc : s.channel = .transaction w p :: rest) {i : Instr} (hd : decode w = .ok i) :
    step s = exec i (s.accept p rest) := by
  simp [step, nextMove, hc, hd]

/-- The step that accepts a word that is no command. -/
theorem step_illegal {s : State} {w : Word} {p : List Byte} {rest : List HostMove}
    (hc : s.channel = .transaction w p :: rest) {e : Illegal} (hd : decode w = .error e) :
    step s = execIllegal (announced w) (s.accept p rest) := by
  simp [step, nextMove, hc, hd]

@[simp] theorem steps_zero (s : State) : steps 0 s = .next s := rfl

/-- A run whose first step completes goes on from there. -/
theorem steps_succ {k : Nat} {s t : State} (h : step s = .next t) : steps (k + 1) s = steps k t := by
  simp [steps, h]

end Sys2Proof.Machine
end

