-- ==== Sys2Proof/Tests/Slice0.lean ====
section
/-! SUPPORT. The model's own tests. Expected values come from spec/95_test_vectors.md (the ids V-… and P…), from the worked
examples of the rules, or from a word written out from the layout of R66. The last part gives, for each statement with
hypotheses, a state and operands that meet them all. -/

namespace Sys2Proof.Tests

open Sys2Proof Sys2Proof.Machine

/-! ### Well-formedness: a term that each check refuses -/

theorem test_wellFormed_refuses_init : (Instr.init true 65536).wellFormed = false := by decide
theorem test_wellFormed_refuses_update : (Instr.update true true 65536).wellFormed = false := by decide
theorem test_wellFormed_accepts_largest : (Instr.update true true 65535).wellFormed = true := by decide

/-! ### Decoding: V-D1 to V-D13, and words written bit by bit (R66, R68) -/

theorem test_decode_init_bits : decode 0b00000001100000000000000000010001 = .ok (.init true 384) := by decide
theorem test_decode_update_bits : decode 0b11111111111111110000000000110010 = .ok (.update true true 65535) := by decide
theorem test_decode_finalize_bits : decode 0b00000000000000000000000000010011 = .ok (.finalize true false) := by decide
theorem test_decode_init_variants :
    decode 0x00E00011 = .ok (.init true 224) ∧ decode 0x02000011 = .ok (.init true 512) ∧
    decode 0x01000001 = .ok (.init false 256) := by decide
theorem test_decode_reserved_op : decode 0x00000000 = .error .reservedOp ∧ decode 0x00000004 = .error .reservedOp ∧
    decode 0x0000000F = .error .reservedOp := by decide
theorem test_decode_reserved_field : decode 0x01000051 = .error .reservedField ∧ decode 0x00030072 = .error .reservedField := by
  decide
theorem test_decode_reserved_operands :
    decode 0x00C80031 = .error .initWithBuffer ∧ decode 0x00010033 = .error .finalizeWithArg := by decide
theorem test_announced : announced 0x00030032 = 3 ∧ announced 0x00050012 = 0 ∧ announced 0x00030072 = 3 ∧
    announced 0xFFFF0032 = 65535 ∧ announced 0x01000011 = 0 := by decide
theorem test_encode_examples : encode (.init true 256) = 0x01000011 ∧ encode (.init true 200) = 0x00C80011 ∧
    encode (.update true true 3) = 0x00030032 ∧ encode (.finalize true true) = 0x00000033 := by decide
theorem test_decodeTableWord : decodeTableWord 32 0x00050012 = some (.update true false 5) ∧
    decodeTableWord 32 0x01000051 = none := by decide

/-! ### The permutation engine -/

/-- The lanes listed, every other lane 0. -/
def lanesWith (l : List (Nat × Lane)) : Lanes := Vector.ofFn fun i => (l.lookup i.val).getD 0

/-- V-T1. -/
theorem test_theta_spread : theta (lanesWith [(0, 1)]) = lanesWith
    [(0, 1), (1, 1), (4, 2), (6, 1), (9, 2), (11, 1), (14, 2), (16, 1), (19, 2), (21, 1), (24, 2)] := by decide +kernel

/-- V-T3: the rotation carries bit 63 to bit 0. -/
theorem test_theta_wrap : (theta (lanesWith [(0, 0x8000000000000000)]))[4] = 1 := by decide +kernel

/-- V-R2, at the lanes whose offsets a swapped table would change. -/
theorem test_rho_offsets : (rho (Vector.replicate 25 1))[2] = 0x4000000000000000 ∧
    (rho (Vector.replicate 25 1))[8] = 0x80000000000000 ∧ (rho (Vector.replicate 25 1))[24] = 0x4000 := by decide +kernel

/-- V-P1. -/
theorem test_pi_moves : (pi (lanesWith [(6, 0x100000000000), (24, 0x8000), (14, 0x10000000000)])) =
    lanesWith [(1, 0x100000000000), (4, 0x8000), (22, 0x10000000000)] := by decide +kernel

/-- V-C3. -/
theorem test_chi_row : chi (lanesWith [(0, 0x0F), (1, 0x33), (2, 0x55)]) =
    lanesWith [(0, 0x4B), (1, 0x33), (2, 0x55), (3, 0x0F), (4, 0x30)] := by decide +kernel

/-- V-I1. -/
theorem test_iota_last : iota (lanesWith []) 23 = lanesWith [(0, 0x8000000080008008)] := by decide +kernel

/-- V-F2. -/
theorem test_round : keccakRound (lanesWith [(0, 1)]) 0 = lanesWith
    [(1, 0x100000000000), (2, 0x8000), (3, 1), (4, 0x100000008000), (6, 0x200000200000), (8, 0x200000000000),
     (9, 0x200000), (10, 2), (11, 0x200), (13, 0x202), (15, 0x10000400), (17, 0x400), (18, 0x10000000),
     (20, 0x10000000000), (22, 0x10000000004), (24, 4)] := by decide +kernel

/-! ### The commands, one step each -/

/-- READY after `init 256` and the bytes given (P1). -/
def readyWith (rate : BitVec 8) (bytes : List Byte) : State :=
  { State.reset with
    rateBytes := rate
    blockBuffer := (bytes.zipIdx.map fun p => (p.2, p.1)).filter fun p => p.2 ≠ 0
    bufferOffset := BitVec.ofNat 8 bytes.length
    phase := phaseReady
    statusOk := true }

/-- DONE, after a successful finalize. -/
def done : State := { State.reset with phase := phaseDone, statusOk := true }

/-- The state with a transaction pending. -/
def issued (w : Word) (p : List Byte) (s : State) : State := s.issue w p

def next? (r : Result) : Option State :=
  match r with
  | .next t => some t
  | _ => none

/-- V-IN1 from DONE: rate and STATUS. -/
theorem test_init_succeeds : (next? (step (issued 0x00E00011 [] done))).map (fun t => (t.status, t.rateBytes)) =
    some (0x11, 144) := by decide

/-- V-X3 in READY: STATUS 0x12 and nothing lost. -/
theorem test_init_rejects_200 : (next? (step (issued 0x00C80011 [] (readyWith 136 [0x61])))).map
    (fun t => (t.status, t.bufferOffset, t.blockBuffer)) = some (0x12, 1, [(0, 0x61)]) := by decide

/-- V-U1. -/
theorem test_update_stores : (next? (step (issued 0x00030032 [0x61, 0x62, 0x63] (readyWith 136 [])))).map
    (fun t => (t.status, t.bufferOffset, t.blockBuffer)) =
    some (0x11, 3, [(0, 0x61), (1, 0x62), (2, 0x63)]) := by decide

/-- P3, step 5: 72 zero bytes at rate 72 leave `KeccakF(0)` (V-F1, lanes 5 and 13) and offset 0. -/
theorem test_update_flushes : (next? (step (issued 0x00480032 (List.replicate 72 0) (readyWith 72 [])))).map
    (fun t => (t.bufferOffset, t.lanes[5], t.lanes[13])) =
    some (0, 0xFF97A42D7F8E6FD4, 0x43B831CD0347C826) := by decide +kernel

/-- V-K1: the source's own known answer, SHA3-256 of "abc". -/
theorem test_finalize_abc : (next? (step (issued 0x00000033 [] (readyWith 136 [0x61, 0x62, 0x63])))).map
    (fun t => (t.status, t.digestOut)) = some (0x21,
    [0x3a, 0x98, 0x5d, 0xa7, 0x4f, 0xe2, 0x25, 0xb2, 0x04, 0x5c, 0x17, 0x2d, 0x6b, 0xd3, 0x90, 0xbd,
     0x85, 0x5f, 0x08, 0x6e, 0x3e, 0x9d, 0x52, 0x5b, 0x46, 0xbf, 0xe2, 0x45, 0x11, 0x43, 0x15, 0x32]) := by decide +kernel

/-- V-B1: the 0x86 case and a digest that ends inside a lane, SHA3-224 of 143 times "a". -/
theorem test_finalize_collision : (next? (step (issued 0x00000033 [] (readyWith 144 (List.replicate 143 0x61))))).map
    (fun t => t.digestOut) = some
    [0x73, 0xb1, 0xb2, 0x2b, 0x54, 0xf5, 0x15, 0xf6, 0x26, 0xa6, 0xab, 0xdd, 0xe6, 0xaf,
     0x25, 0xcd, 0x48, 0x01, 0xdc, 0x6e, 0x9d, 0xc7, 0xfa, 0x3f, 0x77, 0xe1, 0xc1, 0x22] := by decide +kernel

/-- V-X7 in DONE: ILLEGAL before INVALID. -/
theorem test_illegal_first : (next? (step (issued 0x00C80031 [] done))).map State.status = some 0x26 := by decide

/-- V-D13: the payload that an illegal word announces is consumed. -/
theorem test_illegal_consumes_payload : (next? (step (issued 0x00030072 [1, 2, 3] done))).map
    (fun t => (t.status, t.payload)) = some (0x26, []) := by decide

/-- V-M2, the closed form on an exact multiple of the rate: SHA3-256 of 136 times "a". -/
theorem test_sha3_two_blocks : sha3 256 (List.replicate 136 0x61) =
    [0x3f, 0xc5, 0x55, 0x9f, 0x14, 0xdb, 0x8e, 0x45, 0x3a, 0x0a, 0x30, 0x91, 0xed, 0xbd, 0x2b, 0xc2,
     0x5e, 0x11, 0x52, 0x8d, 0x81, 0xc6, 0x6f, 0xa5, 0x70, 0xa4, 0xef, 0xdc, 0xc2, 0x69, 0x5e, 0xe1] := by decide +kernel

/-- V-E4, the closed form on the empty message: SHA3-512. -/
theorem test_sha3_empty : sha3 512 [] =
    [0xa6, 0x9f, 0x73, 0xcc, 0xa2, 0x3a, 0x9a, 0xc5, 0xc8, 0xb5, 0x67, 0xdc, 0x18, 0x5a, 0x75, 0x6e,
     0x97, 0xc9, 0x82, 0x16, 0x4f, 0xe2, 0x58, 0x59, 0xe0, 0xd1, 0xdc, 0xc1, 0x47, 0x5c, 0x80, 0xa6,
     0x15, 0xb2, 0x12, 0x3a, 0xf1, 0xf5, 0xf9, 0x4c, 0x11, 0xe3, 0xe9, 0x40, 0x2c, 0x3a, 0xc5, 0x58,
     0xf5, 0x00, 0x19, 0x9d, 0x95, 0xb6, 0xd3, 0xe3, 0x01, 0x75, 0x85, 0x86, 0x28, 0x1d, 0xcd, 0x26] := by decide +kernel

/-- A word of the table placed by withFetchWord runs as the first command after reset (V-IN2, V-X11). -/
theorem test_withFetchWord : (next? (step (State.reset.withFetchWord 32 0x01000011))).map State.status = some 0x11 ∧
    (next? (step (State.reset.withFetchWord 32 0x00000032))).map State.status = some 0x04 := by decide +kernel

/-! ### The assembler (R75, R76), on the source lines of P1 to P4 -/

theorem test_asm_p1 : Asm.assemble ("init 256\nupdate 3, \"abc\" ; P1\nfinalize".toList) =
    some [(0x01000011, []), (0x00030032, [0x61, 0x62, 0x63]), (0x00000033, [])] := by decide +kernel
theorem test_asm_suffixes : Asm.assemble ("INIT.nh 0x100\nupdate.nh.nb 0\nfinalize.nb\nupdate.nb 5".toList) =
    some [(0x01000001, []), (0x00000002, []), (0x00000013, []), (0x00050012, [])] := by decide +kernel
theorem test_asm_data : Asm.assemble ("update 2, zeros(2)\n.word 0x00030072, repeat(0x61, 3)".toList) =
    some [(0x00020032, [0, 0]), (0x00030072, [0x61, 0x61, 0x61])] := by decide +kernel
theorem test_asm_rejects : Asm.assemble "update 4, \"abc\"".toList = none ∧ Asm.assemble "init 65536".toList = none ∧
    Asm.assemble "update.nb.nh 0".toList = none := by decide +kernel

/-! ### Witnesses: states and operands that meet the hypotheses of the statements -/

def ready : State := readyWith 136 [0x61, 0x62, 0x63]

theorem possible_ready : Possible ready := ⟨by decide, by decide, by decide⟩
theorem possible_done : Possible done := ⟨by decide, by decide, by decide⟩
theorem possible_reset : Possible State.reset := ⟨by decide, by decide, by decide⟩

/-- A state of the guardless block. -/
def unguarded : State := { State.reset with config := { seqGuard := false } }

/-- The sponge registers of READY with the buffer full but for one byte. -/
def almostFull : State := readyWith 72 (List.replicate 71 0x61)

theorem witness_DecodeOfEncodeIsTheCommand :
    (Instr.init false 65535).wellFormed = true ∧ (Instr.update true true 0).wellFormed = true ∧
    (Instr.finalize false true).wellFormed = true := by decide

theorem witness_EncodeOfDecodeIsTheWord : decode 0xFFFF0032 = .ok (.update true true 65535) ∧
    decode 0x00000001 = .ok (.init false 0) ∧ decode 0x00000003 = .ok (.finalize false false) := by decide

theorem witness_AnnouncedLengthOfAWord : decode 0x00010032 = .ok (.update true true 1) := by decide

/-- One word for each clause of the reserved words, at the ends of its range. -/
theorem witness_ReservedWordsAreIllegalCommands : ∀ w ∈ [(0x00 : Word), 0x04, 0x0F, 0x41, 0xFFD2, 0x21, 0x00010003],
    Possible ready ∧ (issued w [] ready).channel = .transaction w [] :: [] ∧
    ([] : List Byte).length = announced w ∧
    (w.toNat % 16 = 0 ∨ 4 ≤ w.toNat % 16 ∨ w.toNat / 64 % 1024 ≠ 0 ∨
      (w.toNat % 16 = 1 ∧ w.toNat / 32 % 2 = 1) ∨ (w.toNat % 16 = 3 ∧ w.toNat / 65536 ≠ 0)) := by
  intro w hw
  refine ⟨possible_ready, rfl, ?_⟩
  fin_cases hw <;> decide

theorem witness_RotationMovesEachBit : (0 ≤ 63 ∧ 0 < 64) ∧ (63 ≤ 63 ∧ 63 < 64) := by decide

/-- Two equal lanes in one column have parity 0 (V-T2). -/
theorem witness_ThetaAddsColumnParities : ∀ x : Nat, x < 5 →
    lane (lanesWith [(0, 1), (5, 1)]) x 0 ^^^ lane (lanesWith [(0, 1), (5, 1)]) x 1 ^^^
      lane (lanesWith [(0, 1), (5, 1)]) x 2 ^^^ lane (lanesWith [(0, 1), (5, 1)]) x 3 ^^^
      lane (lanesWith [(0, 1), (5, 1)]) x 4 = 0 := by decide +kernel

/-- A row of ones among rows of zeros (V-C4). -/
theorem witness_ChiActsOnRows : ∀ x : Nat, x < 5 →
    lane (lanesWith [(5, BitVec.allOnes 64), (6, BitVec.allOnes 64), (7, BitVec.allOnes 64), (8, BitVec.allOnes 64),
      (9, BitVec.allOnes 64)]) x 1 = BitVec.allOnes 64 ∧
    lane (lanesWith [(5, BitVec.allOnes 64)]) x 4 = 0 := by decide +kernel

theorem witness_LoopDrivenEngineComputesKeccakF : EngineRegs.atReset.ir = 0 := rfl

theorem witness_MemReadIsLittleEndian : (0 : Nat) < 8 ∧ 7 < 8 := by decide

theorem witness_MemWriteThenMemRead : ready.blockBuffer.wf = true ∧ 136 + 8 ≤ 144 ∧ (135 < 136 ∨ 136 + 8 ≤ 135) := by decide

theorem witness_AbsorptionAndExtractionAgree : legalRate 72 = true ∧ 71 < 200 ∧ 71 < 72 ∧ 199 < 200 ∧ ¬ 72 < 72 := by decide

theorem witness_ResetInputClearsTheBlock :
    ({ ready with channel := [.reset] } : State).channel = [.reset] ∧
    ∃ w p, ({ ready with faultMark := true, channel := [.resetDuring 0x33 []] } : State).channel = [.resetDuring w p] :=
  ⟨rfl, 0x33, [], rfl⟩

theorem witness_ResetLeavesTheDigestChannel :
    (next? (step { done with channel := [.reset], digestOut := [1, 2] })).map State.digestOut = some [1, 2] ∧
    (next? (step { ready with channel := [.resetDuring 0x33 []], digestOut := [1] })).map State.digestOut = some [1] := by
  decide

theorem witness_StatusReadsHaveNoSideEffect : Possible { ready with channel := [.readStatus, .readStatus, .reset] } ∧
    ({ ready with channel := [.readStatus, .readStatus, .reset] } : State).channel =
      List.replicate 2 .readStatus ++ [.reset] := ⟨⟨by decide, by decide, by decide⟩, rfl⟩

theorem witness_IdleBlockHoldsItsState : ready.channel = [] := rfl

theorem witness_TakingTheDigestTakesItsFirstBytes :
    Possible { done with channel := [.takeDigest 2], digestOut := [1, 2, 3] } ∧
    ({ done with channel := [.takeDigest 2], digestOut := [1, 2, 3] } : State).digestOut = [1, 2] ++ [3] :=
  ⟨⟨by decide, by decide, by decide⟩, rfl⟩

theorem witness_StepRunsTheDecodedCommand :
    (issued 0x00030032 [0x61, 0x62, 0x63] ready).channel = .transaction 0x00030032 [0x61, 0x62, 0x63] :: [] ∧
    decode 0x00030032 = .ok (.update true true 3) := by decide

theorem witness_IllFormedTransactionIsRefused :
    (issued 0x00030032 [0x61] ready).channel = .transaction 0x00030032 [0x61] :: [] ∧
    [(0x61 : Byte)].length ≠ announced 0x00030032 := by decide

theorem witness_InitSetsUpTheVariant : Possible ready ∧ ready.payload = [] ∧
    (256 = 224 ∨ 256 = 256 ∨ 256 = 384 ∨ 256 = 512) := ⟨possible_ready, rfl, by decide⟩

theorem witness_RateAndDigestLengthOfEachVariant : supportedBitsize 224 = true ∧ supportedBitsize 512 = true := by decide

theorem witness_FailingInitChangesStatusOnly : Possible ready ∧ ready.payload = [] ∧
    (200 ≠ 224 ∧ 200 ≠ 256 ∧ 200 ≠ 384 ∧ 200 ≠ 512) := ⟨possible_ready, rfl, by decide⟩

theorem witness_UpdateOffsetAndPermutationCount : Possible { ready with payload := List.replicate 300 0x61 } ∧
    ({ ready with payload := List.replicate 300 0x61 } : State).phase = phaseReady ∧
    ({ ready with payload := List.replicate 300 0x61 } : State).spongeOk = true ∧ (true = true ∨ 300 = 0) ∧
    ({ ready with payload := List.replicate 300 0x61 } : State).payload.length = 300 :=
  ⟨⟨by decide, by decide, by decide⟩, rfl, by decide, .inl rfl, List.length_replicate⟩

theorem witness_UpdateStoresBelowTheRate : Possible { ready with payload := List.replicate 132 0x61 } ∧
    ({ ready with payload := List.replicate 132 0x61 } : State).spongeOk = true ∧ ready.phase = phaseReady ∧
    ready.blockBuffer.wf = true ∧ ready.bufferOffset.toNat + 132 < ready.rateBytes.toNat ∧
    (List.replicate 132 (0x61 : Byte)).length = 132 :=
  ⟨⟨by decide, by decide, by decide⟩, by decide, rfl, by decide, by decide, List.length_replicate⟩

theorem witness_UpdateFlushesAFullBuffer : Possible { almostFull with payload := [0x62] } ∧
    ({ almostFull with payload := [0x62] } : State).spongeOk = true ∧ almostFull.phase = phaseReady ∧
    almostFull.blockBuffer.wf = true ∧ almostFull.bufferOffset.toNat + 1 = almostFull.rateBytes.toNat :=
  ⟨⟨by decide, by decide, by decide⟩, by decide, rfl, by decide +kernel, by decide⟩

theorem witness_ZeroLengthUpdateIsANoOpSuccess : (Possible ready ∧ ready.phase = phaseReady ∧ ready.spongeOk = true ∧
    ready.payload = []) ∧ (Possible done ∧ done.payload = [] ∧ done.phase ≠ phaseReady ∧ done.config.seqGuard = true) ∧
    (Possible unguarded ∧ unguarded.payload = [] ∧ unguarded.phase ≠ phaseReady ∧ unguarded.config.seqGuard = false) :=
  ⟨⟨possible_ready, rfl, by decide, rfl⟩, ⟨possible_done, rfl, by decide, rfl⟩,
    ⟨⟨by decide, by decide, by decide⟩, rfl, by decide, rfl⟩⟩

/-- The byte that fills the buffer, and one that does not. -/
theorem witness_UpdateTakesItsBytesOneAtATime : (Possible { almostFull with payload := [0x62] } ∧
    almostFull.phase = phaseReady ∧ almostFull.spongeOk = true ∧
    ({ almostFull with payload := [0x62] } : State).payload = 0x62 :: [] ∧
    almostFull.bufferOffset.toNat + 1 = almostFull.rateBytes.toNat) ∧
    (Possible { ready with payload := [0x62] } ∧ ready.phase = phaseReady ∧ ready.spongeOk = true ∧
      ready.bufferOffset.toNat + 1 ≠ ready.rateBytes.toNat) :=
  ⟨⟨⟨by decide, by decide, by decide⟩, rfl, by decide, rfl, by decide⟩,
    ⟨⟨by decide, by decide, by decide⟩, rfl, by decide, by decide⟩⟩

theorem witness_UpdateWithoutHandleOrBufferFails : Possible { done with payload := [0x61] } ∧
    ({ done with payload := [0x61] } : State).payload.length = (if true = true then 1 else 0) ∧
    Possible ready ∧ ready.payload.length = (if false = true then 5 else 0) ∧ (false = false ∧ 0 < 5) :=
  ⟨⟨by decide, by decide, by decide⟩, rfl, possible_ready, rfl, by decide⟩

theorem witness_ChunkingDoesNotChangeTheState : Possible ready ∧ ready.phase = phaseReady ∧ ready.spongeOk = true ∧
    [[(0x61 : Byte)], [], [0x62]] ≠ [] ∧ [[(0x61 : Byte), 0x62]] ≠ [] ∧
    [[(0x61 : Byte)], [], [0x62]].flatten = [[(0x61 : Byte), 0x62]].flatten ∧
    (∀ c ∈ [[(0x61 : Byte)], [], [0x62]], c.length ≤ 65535) ∧ (∀ c ∈ [[(0x61 : Byte), 0x62]], c.length ≤ 65535) :=
  ⟨possible_ready, rfl, by decide, by decide, by decide, by decide, by decide, by decide⟩

theorem witness_FinalizeEmitsTheDigestAndScrubs : Possible ready ∧ ready.phase = phaseReady ∧ ready.spongeOk = true ∧
    ready.blockBuffer.wf = true ∧ ready.payload = [] := ⟨possible_ready, rfl, by decide, by decide, rfl⟩

theorem witness_PaddingCollisionIsEightySix : almostFull.blockBuffer.wf = true ∧ legalRate 72 = true ∧ 70 ≠ 72 - 1 ∧
    72 ≠ 72 - 1 := by decide +kernel

theorem witness_ExactBoundaryPadsAWholeBlock : almostFull.blockBuffer.wf = true ∧ legalRate 72 = true ∧ 0 < 72 ∧
    71 < 72 := by decide +kernel

theorem witness_FailingFinalizeEmitsNothing : Possible done ∧ done.payload = [] ∧ (true = false ∨ false = false) :=
  ⟨possible_done, rfl, by decide⟩

theorem witness_OutOfPhaseCommandIsASequenceError : Possible { done with payload := [0x61] } ∧ done.phase ≠ phaseReady ∧
    done.config.seqGuard = true ∧ done.payload = [] ∧ ({ done with payload := [0x61] } : State).payload.length = 1 :=
  ⟨⟨by decide, by decide, by decide⟩, by decide, rfl, rfl, rfl⟩

theorem witness_UnguardedOutOfPhaseCommandFaults : Possible unguarded ∧ unguarded.phase ≠ phaseReady ∧
    unguarded.config.seqGuard = false ∧ unguarded.payload = [] ∧
    ({ unguarded with payload := [0x61] } : State).payload.length = 1 :=
  ⟨⟨by decide, by decide, by decide⟩, by decide, rfl, rfl, rfl⟩

/-- A READY state in the middle of a message meets the invariant. -/
theorem blockInv_ready : BlockInv ready where
  bufferWf := by decide
  phaseLegal := by decide
  errLegal := by decide
  okNoError := by decide
  okPhase := by decide
  readySponge := by decide
  readyTail := by
    intro _ a ha
    have h : 136 ≤ a := ha
    have h0 : a ≠ 0 := by omega
    have h1 : a ≠ 1 := by omega
    have h2 : a ≠ 2 := by omega
    simp [ready, readyWith, Memory.read, unlistedByte, h0, h1, h2]
  idleZero := fun h => absurd rfl h
  payloadConsumed := rfl

theorem witness_EveryStepKeepsTheInvariant : BlockInv ready ∧ step ready = .next ready := ⟨blockInv_ready, rfl⟩

theorem witness_GuardedBlockNeverFaults : BlockInv ready ∧ ready.faultMark = false ∧ ready.config.seqGuard = true :=
  ⟨blockInv_ready, rfl, rfl⟩

theorem witness_FailureCommitsNoPartialProgress :
    (issued 0x00C80011 [] ready).channel = .transaction 0x00C80011 [] :: [] ∧
    (next? (step (issued 0x00C80011 [] ready))).map State.statusOk = some false := by decide

/-- A FINALIZE that emits, one that reset abandons, and a taking of bytes. -/
theorem witness_OnlyFinalizeEmits :
    (next? (step (issued 0x33 [] ready))).map (fun t => t.digestOut.length) = some 32 ∧
    (next? (step { ready with channel := [.resetDuring 0x33 []], digestOut := [1, 2] })).map State.digestOut =
      some [1, 2] ∧
    (next? (step { done with channel := [.takeDigest 1], digestOut := [1, 2] })).map State.digestOut = some [2] := by
  decide +kernel

theorem witness_PhaseTransitions :
    (next? (step (issued 0x01000011 [] State.reset))).map State.phase = some phaseReady ∧
    State.reset.phase ≠ phaseReady := by decide

theorem witness_WhoWritesLanesAndRate :
    (next? (step (issued 0x01000011 [] State.reset))).map State.rateBytes = some 136 ∧ (136 : BitVec 8) ≠ 0 ∧
    (next? (step { ready with lanes := lanesWith [(3, 1)], channel := [.reset] })).map (fun t => t.lanes[3]) = some 0 ∧
    (lanesWith [(3, 1)])[3] ≠ 0 := by decide +kernel

/-- A FINALIZE in READY and a reset write 0 to the rate. -/
theorem witness_WhoZeroesTheRate : ready.rateBytes ≠ 0 ∧
    (next? (step (issued 0x33 [] ready))).map State.rateBytes = some 0 ∧
    (next? (step { ready with channel := [.reset] })).map State.rateBytes = some 0 := by decide +kernel

theorem witness_FaultMarkIsSticky : step ready = .next ready ∧
    step (issued 0x33 [] unguarded) =
      .fault (.contractViolation { unguarded with faultMark := true }) := ⟨rfl, rfl⟩

theorem witness_NoTransactionCompletesAfterAFault :
    (issued 0x01000011 [] { ready with faultMark := true }).channel = .transaction 0x01000011 [] :: [] ∧
    (issued 0x01000011 [] { ready with faultMark := true }).faultMark = true := ⟨rfl, rfl⟩

theorem witness_ReservedValuesFault :
    (issued 0x33 [] { done with phase := 3 }).channel = .transaction 0x33 [] :: [] ∧
    ([] : List Byte).length = announced 0x33 ∧ ({ done with phase := 3 } : State).faultMark = false ∧
    ({ done with statusErr := 4 } : State).phase ≠ 3 ∧ 4 ≤ ({ done with statusErr := 4 } : State).statusErr.toNat := by
  decide

theorem witness_BrokenSpongeFaults : Possible { ready with bufferOffset := 136 } ∧
    ({ ready with bufferOffset := 136 } : State).phase = phaseReady ∧
    ({ ready with bufferOffset := 136 } : State).rateBytes.toNat ≤
      ({ ready with bufferOffset := 136 } : State).bufferOffset.toNat ∧
    Possible { ready with rateBytes := 73 } ∧ (73 : BitVec 8) ≠ 144 ∧ (73 : BitVec 8) ≠ 136 ∧ (73 : BitVec 8) ≠ 104 ∧
    (73 : BitVec 8) ≠ 72 ∧ ready.payload = [] :=
  ⟨⟨by decide, by decide, by decide⟩, rfl, by decide, ⟨by decide, by decide, by decide⟩, by decide, by decide, by decide,
    by decide, rfl⟩

theorem witness_StaleBytesAreUnobservable : AgreeExceptStale ready
    { ready with blockBuffer := ready.blockBuffer ++ [(3, 0xFF)] } where
  leftWf := by decide
  rightWf := by decide
  rest := rfl
  valid := by decide

theorem witness_OneObservationPerTransaction :
    (observe 2 (issued 0x01000011 [] (issued 0x00000013 [] State.reset))).map (fun r => r.2.length) = some 2 := by decide

theorem witness_CommandsComputeSha3 : Possible State.reset ∧ supportedBitsize 224 = true ∧
    (∀ c ∈ [[(0x61 : Byte)], []], c.length ≤ 65535) := ⟨possible_reset, by decide, by decide⟩

theorem witness_Sha3PseudoInstructionEmitsTheDigest : Possible done ∧ supportedBitsize 384 = true :=
  ⟨possible_done, by decide⟩

end Sys2Proof.Tests
end

section
/-! The lane rotation of R12: the model's `rotl` is the library's `BitVec.rotateLeft`, and where each bit goes. -/
namespace Sys2Proof.Machine

theorem rotl_eq_rotateLeft (v : Lane) {n : Nat} (hn : n < 64) : rotl v n = v.rotateLeft n := by
  rw [rotl, BitVec.rotateLeft_def, Nat.mod_eq_of_lt hn]

/-- Below `n` stand the top bits that came round; from `n` on, the others moved up. -/
theorem getLsbD_rotl (v : Lane) {n i : Nat} (hn : n < 64) (hi : i < 64) :
    (rotl v n).getLsbD i = if i < n then v.getLsbD (64 - n + i) else v.getLsbD (i - n) := by
  rw [rotl_eq_rotateLeft v hn, BitVec.getLsbD_rotateLeft_of_le hn]
  simp [hi, Bool.cond_decide]

theorem getLsbD_rotl_add_mod (v : Lane) {n z : Nat} (hn : n < 64) (hz : z < 64) :
    (rotl v n).getLsbD ((z + n) % 64) = v.getLsbD z := by
  rw [getLsbD_rotl v hn (Nat.mod_lt _ (by decide))]
  obtain hstay | hwrap := Nat.lt_or_ge (z + n) 64
  · rw [Nat.mod_eq_of_lt hstay, if_neg (by omega), Nat.add_sub_cancel]
  · have hmod : (z + n) % 64 = z + n - 64 := by omega
    have hback : 64 - n + (z + n - 64) = z := by omega
    rw [hmod, if_pos (by omega), hback]

/-- Settles O7: a bit either stays below 64 and moves up by `n`, or wraps to the bottom. -/
theorem rotationMovesEachBit : Obligations.RotationMovesEachBit := by
  intro v n z hn hz
  exact getLsbD_rotl_add_mod v (by omega) hz

end Sys2Proof.Machine
end

section
/-! One equation per host move for `step`, every transaction behind the boundary check of R73, and the mark that
every fault records (R34). -/
namespace Sys2Proof.Machine

/-! ### What a step is, by the move at the head of the channel -/

section Moves

variable {s : State} {w : Word} {p : List Byte} {rest : List HostMove} {n : Nat}

theorem step_idle (hc : s.channel = []) : step s = .next s := by
  simp [step, nextMove, hc]

theorem step_reset (hc : s.channel = .reset :: rest ∨ ∃ w p, s.channel = .resetDuring w p :: rest) :
    step s = .next (s.moveTaken rest).assertReset := by
  rcases hc with hc | ⟨w, p, hc⟩ <;> simp [step, nextMove, hc]

theorem step_readStatus (hc : s.channel = .readStatus :: rest) :
    step s = whenPossible (s.moveTaken rest) fun u => .next u := by
  simp [step, nextMove, hc, State.readStatus]

theorem step_takeDigest (hc : s.channel = .takeDigest n :: rest) :
    step s = whenPossible (s.moveTaken rest) fun u => .next (u.takeDigest n) := by
  simp [step, nextMove, hc]

/-- Every command begins with the boundary check of R73 on its own announced length. -/
theorem exec_eq_transact (i : Instr) (s : State) : ∃ run, exec i s = transact i.announced s run := by
  cases i with
  | init hp bitsize => exact ⟨_, rfl⟩
  | update hp bp length => exact ⟨_, rfl⟩
  | finalize hp bp => exact ⟨_, rfl⟩

/-- A command announces what its word does (R73). -/
theorem announced_of_decode {i : Instr} (hd : decode w = .ok i) : i.announced = announced w := by
  obtain ⟨-, ⟨ho, -, rfl⟩ | ⟨ho, rfl⟩ | ⟨ho, -, rfl⟩⟩ := decode_ok hd
  · simp [Instr.announced, announced, ho]
  · simp [Instr.announced, announced, ho]
  · simp [Instr.announced, announced, ho]

theorem step_transaction (hc : s.channel = .transaction w p :: rest) :
    ∃ run, step s = transact (announced w) (s.accept p rest) run := by
  cases hd : decode w with
  | ok i => rw [step_command hc hd, ← announced_of_decode hd]; exact exec_eq_transact i _
  | error e => exact ⟨_, step_illegal hc hd⟩

end Moves

/-- Settles O25: taking as many bytes as the first part holds drops exactly that part. -/
theorem takingTheDigestTakesItsFirstBytes : Obligations.TakingTheDigestTakesItsFirstBytes := by
  intro s bytes later rest hp hc hdig
  rw [step_takeDigest hc, whenPossible_of_possible (hp.moveTaken rest)]
  simp [State.takeDigest, State.moveTaken, hdig]

/-! ### Where a transaction faults before its word is looked at -/

theorem whenPossible_of_impossible {s : State} {f : Fault} (h : impossibleState s = some f) (run : State → Result) :
    whenPossible s run = .fault f := by
  simp [whenPossible, h]

theorem transact_of_impossible {n : Nat} {s : State} {f : Fault} (hp : s.payload.length = n)
    (h : impossibleState s = some f) (run : State → Result) : transact n s run = .fault f := by
  rw [transact, if_pos hp, whenPossible_of_impossible h]

theorem impossibleState_of_phaseReserved {s : State} (hm : s.faultMark = false) (hph : s.phase = phaseReserved) :
    impossibleState s = some (.contractViolation s.recordFault) := by
  simp [impossibleState, hm, hph]

theorem impossibleState_of_errReserved {s : State} (hm : s.faultMark = false) (hph : s.phase ≠ phaseReserved)
    (he : errReserved s.statusErr = true) : impossibleState s = some (.reservedErrorCode s.recordFault) := by
  simp [impossibleState, hm, hph, he]

/-- Settles O53: the payload passes the boundary check, and then the reserved value is met before the word. -/
theorem reservedValuesFault : Obligations.ReservedValuesFault := by
  intro s w p rest hc hl hm
  obtain ⟨run, hstep⟩ := step_transaction hc
  have hdelivered : (s.accept p rest).payload.length = announced w := hl
  rw [hstep]
  constructor
  · intro hph
    exact transact_of_impossible hdelivered (impossibleState_of_phaseReserved hm hph) run
  · intro hph he
    exact transact_of_impossible hdelivered (impossibleState_of_errReserved hm hph (by simp [errReserved, he])) run

/-! ### Every fault records the sticky mark -/

/-- If this outcome is a fault, the state it leaves has the fault mark set. -/
def MarksFaults (r : Result) : Prop := ∀ f, r = .fault f → f.state.faultMark = true

theorem MarksFaults.next (t : State) : MarksFaults (.next t) := nofun

theorem MarksFaults.refused (r : Refusal) : MarksFaults (.refused r) := nofun

theorem MarksFaults.fault {f : Fault} (h : f.state.faultMark = true) : MarksFaults (.fault f) := by
  rintro _ ⟨⟩
  exact h

theorem MarksFaults.ite {c : Prop} [Decidable c] {a b : Result} (ha : MarksFaults a) (hb : MarksFaults b) :
    MarksFaults (if c then a else b) := by
  split
  · exact ha
  · exact hb

theorem impossibleState_marked {s : State} {f : Fault} (h : impossibleState s = some f) :
    f.state.faultMark = true := by
  unfold impossibleState at h
  split at h
  · next hm => cases h; exact hm
  · split at h
    · cases h; rfl
    · split at h
      · cases h; rfl
      · cases h

theorem MarksFaults.whenPossible {s : State} {run : State → Result} (h : MarksFaults (run s)) :
    MarksFaults (whenPossible s run) := by
  cases hi : impossibleState s with
  | some f => rw [whenPossible_of_impossible hi]; exact .fault (impossibleState_marked hi)
  | none => rw [whenPossible_of_possible (impossibleState_eq_none.1 hi)]; exact h

theorem MarksFaults.transact {n : Nat} {s : State} {run : State → Result} (h : MarksFaults (run s)) :
    MarksFaults (transact n s run) :=
  .ite (.whenPossible h) (.refused _)

theorem MarksFaults.whenReady {s : State} {body : State → Result} (h : MarksFaults (body s)) :
    MarksFaults (whenReady s body) :=
  .ite (.ite h (.fault rfl)) (.ite (.next _) (.fault rfl))

theorem exec_marksFaults (i : Instr) (s : State) : MarksFaults (exec i s) := by
  cases i with
  | init hp bitsize => exact .transact (.ite (.next _) (.ite (.next _) (.next _)))
  | update hp bp length => exact .transact (.ite (.next _) (.ite (.next _) (.whenReady (.next _))))
  | finalize hp bp => exact .transact (.ite (.next _) (.ite (.next _) (.whenReady (.next _))))

theorem step_marksFaults (s : State) : MarksFaults (step s) := by
  cases hc : s.channel with
  | nil => rw [step_idle hc]; exact .next _
  | cons move rest =>
    cases move with
    | transaction w p =>
      cases hd : decode w with
      | ok i => rw [step_command hc hd]; exact exec_marksFaults i _
      | error e => rw [step_illegal hc hd]; exact .transact (.next _)
    | reset => rw [step_reset (.inl hc)]; exact .next _
    | resetDuring w p => rw [step_reset (.inr ⟨w, p, hc⟩)]; exact .next _
    | readStatus => rw [step_readStatus hc]; exact .whenPossible (.next _)
    | takeDigest n => rw [step_takeDigest hc]; exact .whenPossible (.next _)

end Sys2Proof.Machine
end

section
/-! What a completing step can do to the block, said once (`step_effect`), and the safety statements that follow: who
writes PHASE, the lanes, the rate, the fault mark and the digest channel. -/
namespace Sys2Proof.Machine

/-! ### The fields the bodies of INIT and FINALIZE leave -/

section Bodies

variable (s : State) (bitsize : Nat)

@[simp] theorem initBody_phase : (initBody bitsize s).phase = phaseReady := rfl
@[simp] theorem initBody_faultMark : (initBody bitsize s).faultMark = s.faultMark := rfl
@[simp] theorem initBody_digestOut : (initBody bitsize s).digestOut = s.digestOut := rfl

@[simp] theorem finalizeBody_rateBytes : (finalizeBody s).rateBytes = 0 := rfl
@[simp] theorem finalizeBody_phase : (finalizeBody s).phase = phaseDone := rfl
@[simp] theorem finalizeBody_faultMark : (finalizeBody s).faultMark = s.faultMark := rfl
@[simp] theorem finalizeBody_digestOut :
    (finalizeBody s).digestOut = s.digestOut ++ s.pad.absorbBlock.digest := rfl

/-- OK = 1, no error, DONE (R27, R120). -/
theorem finalizeBody_status : (finalizeBody s).completed.status = 0x21 := by
  rw [State.status, completed_phase, finalizeBody_phase, completed_statusErr, completed_statusOk]
  decide

@[simp] theorem laneBytes_length (lanes : Lanes) (count : Nat) : (laneBytes lanes count).length = count := by
  simp [laneBytes]

theorem digest_length : s.digest.length = (200 - s.rateBytes.toNat) / 2 := laneBytes_length _ _

end Bodies

/-- A supported variant's rate fits the 8-bit register (R21, R112). -/
theorem initBody_rateBytes_toNat {bitsize : Nat} (h : supportedBitsize bitsize = true) (s : State) :
    (initBody bitsize s).rateBytes.toNat = rateOf bitsize := by
  simp only [supportedBitsize, Bool.or_eq_true, beq_iff_eq] at h
  rcases h with ((rfl | rfl) | rfl) | rfl <;> rfl

theorem rateOf_ne_zero {bitsize : Nat} (h : supportedBitsize bitsize = true) : rateOf bitsize ≠ 0 := by
  simp only [supportedBitsize, Bool.or_eq_true, beq_iff_eq] at h
  unfold rateOf
  omega

/-! ### The effects of a step -/

/-- What a completing step can have done to the block. -/
inductive StepEffect (s t : State) : Prop
  /-- The HashState, PHASE and the fault mark are kept and no byte is emitted: an idle step, a failing transaction, a
  status read or a taking of digest bytes. -/
  | quiet (n : Nat) (ht : t = { s with
      channel := t.channel, payload := t.payload, statusOk := t.statusOk, statusErr := t.statusErr,
      digestOut := s.digestOut.drop n })
  /-- A successful INIT (R113). -/
  | init (w : Word) (p : List Byte) (rest : List HostMove) (bitsize : Nat)
      (hc : s.channel = .transaction w p :: rest) (hd : decode w = .ok (.init true bitsize))
      (hb : supportedBitsize bitsize = true) (ht : t = (initBody bitsize (s.accept p rest)).completed)
  /-- A successful UPDATE (R115). -/
  | update (w : Word) (p : List Byte) (rest : List HostMove) (bp : Bool) (length : Nat)
      (hc : s.channel = .transaction w p :: rest) (hd : decode w = .ok (.update true bp length))
      (hready : s.phase = phaseReady) (hs : s.spongeOk = true)
      (ht : t = ((s.accept p rest).absorbBytes p).completed)
  /-- A successful FINALIZE (R120). -/
  | finalize (w : Word) (p : List Byte) (rest : List HostMove)
      (hc : s.channel = .transaction w p :: rest) (hd : decode w = .ok (.finalize true true))
      (hready : s.phase = phaseReady) (hs : s.spongeOk = true)
      (ht : t = (finalizeBody (s.accept p rest)).completed)
  /-- Reset, between transactions or during one (R170, R171). -/
  | reset (rest : List HostMove)
      (hc : s.channel = .reset :: rest ∨ ∃ w p, s.channel = .resetDuring w p :: rest)
      (ht : t = (s.moveTaken rest).assertReset)

theorem step_effect {s t : State} (h : step s = .next t) : StepEffect s t := by
  rcases step_next h with ⟨-, rfl⟩ | ⟨w, p, rest, hc, ⟨i, hd, he⟩ | ⟨e, -, he⟩⟩ | ⟨rest, hc, rfl⟩ |
    ⟨rest, -, -, rfl⟩ | ⟨n, rest, -, -, rfl⟩
  · exact .quiet 0 rfl
  · obtain ⟨-, -, ⟨code, rfl⟩ | ⟨bitsize, rfl, hb, ht⟩ | ⟨bp, length, rfl, -, hr, hs, ht⟩ | ⟨rfl, hr, hs, ht⟩⟩ :=
      exec_next he
    · exact .quiet 0 rfl
    · exact .init w p rest bitsize hc hd hb ht
    · exact .update w p rest bp length hc hd hr hs ht
    · exact .finalize w p rest hc hd hr hs ht
  · obtain ⟨-, -, rfl⟩ := execIllegal_next he
    exact .quiet 0 rfl
  · exact .reset rest hc rfl
  · exact .quiet 0 rfl
  · exact .quiet n rfl

/-- Settles O48: every effect but FINALIZE's keeps the channel or drops a first part of it. -/
theorem onlyFinalizeEmits : Obligations.OnlyFinalizeEmits := by
  intro s t h
  cases step_effect h with
  | quiet n ht => exact .inl ⟨n, congrArg State.digestOut ht⟩
  | init w p rest bitsize _ _ _ ht => exact .inl ⟨0, by simp [ht]⟩
  | update w p rest bp length _ _ _ _ ht => exact .inl ⟨0, by simp [ht]⟩
  | reset rest _ ht => exact .inl ⟨0, by simp [ht]⟩
  | finalize w p rest hc hd hready _ ht =>
    exact .inr ⟨w, p, rest, (s.accept p rest).pad.absorbBlock.digest, hc, hd, hready, by simp [ht], digest_length _,
      by rw [ht, finalizeBody_status]⟩

/-- Settles O49: INIT, FINALIZE and reset are the effects that write PHASE. -/
theorem phaseTransitions : Obligations.PhaseTransitions := by
  intro s t h hne
  cases step_effect h with
  | quiet n ht => exact absurd (congrArg State.phase ht) hne
  | update w p rest bp length _ _ _ _ ht => exact absurd (by simp [ht]) hne
  | init w p rest bitsize hc hd _ ht =>
    exact .inl ⟨w, p, rest, hc, by simp [ht], .inl ⟨bitsize, hd, by simp [ht]⟩⟩
  | finalize w p rest hc hd hready _ ht =>
    exact .inl ⟨w, p, rest, hc, by simp [ht], .inr ⟨hd, hready, by simp [ht]⟩⟩
  | reset rest hc ht => exact .inr ⟨⟨rest, hc⟩, by simp [ht]⟩

/-- A step that writes a non-zero rate is an INIT, and the rate is its variant's. -/
theorem step_rate_nonzero {s t : State} (h : step s = .next t) (hne : t.rateBytes ≠ s.rateBytes)
    (hnz : t.rateBytes ≠ 0) :
    ∃ w p rest bitsize, s.channel = .transaction w p :: rest ∧ decode w = .ok (.init true bitsize) ∧
      t.rateBytes.toNat = rateOf bitsize := by
  cases step_effect h with
  | quiet n ht => exact absurd (congrArg State.rateBytes ht) hne
  | update w p rest bp length _ _ _ _ ht => exact absurd (by simp [ht]) hne
  | finalize w p rest _ _ _ _ ht => exact absurd (by simp [ht]) hnz
  | reset rest _ ht => exact absurd (by simp [ht]) hnz
  | init w p rest bitsize hc hd hb ht =>
    exact ⟨w, p, rest, bitsize, hc, hd, by simp [ht, initBody_rateBytes_toNat hb]⟩

/-- A step that writes the lanes is a successful command, in READY or an INIT, or a reset, which zeroes them. -/
theorem step_lanes {s t : State} (h : step s = .next t) (hne : t.lanes ≠ s.lanes) :
    (∃ w p rest i, s.channel = .transaction w p :: rest ∧ decode w = .ok i ∧ t.statusOk = true ∧
      (s.phase = phaseReady ∨ ∃ bitsize, i = .init true bitsize)) ∨
    ((∃ rest, s.channel = .reset :: rest ∨ ∃ w p, s.channel = .resetDuring w p :: rest) ∧
      t.lanes = Vector.replicate 25 0) := by
  cases step_effect h with
  | quiet n ht => exact absurd (congrArg State.lanes ht) hne
  | init w p rest bitsize hc hd _ ht => exact .inl ⟨w, p, rest, _, hc, hd, by simp [ht], .inr ⟨bitsize, rfl⟩⟩
  | update w p rest bp length hc hd hready _ ht => exact .inl ⟨w, p, rest, _, hc, hd, by simp [ht], .inl hready⟩
  | finalize w p rest hc hd hready _ ht => exact .inl ⟨w, p, rest, _, hc, hd, by simp [ht], .inl hready⟩
  | reset rest hc ht => exact .inr ⟨⟨rest, hc⟩, by simp [ht]⟩

/-- Settles O50, clause by clause. -/
theorem whoWritesLanesAndRate : Obligations.WhoWritesLanesAndRate :=
  fun _ _ h => ⟨step_rate_nonzero h, step_lanes h⟩

/-- Settles O59: INIT writes a rate that is not 0, so FINALIZE and reset remain. -/
theorem whoZeroesTheRate : Obligations.WhoZeroesTheRate := by
  intro s t h hne hz
  cases step_effect h with
  | quiet n ht => exact absurd (congrArg State.rateBytes ht) hne
  | update w p rest bp length _ _ _ _ ht => exact absurd (by simp [ht]) hne
  | init w p rest bitsize _ _ hb ht =>
    have hrate : t.rateBytes.toNat = rateOf bitsize := by simp [ht, initBody_rateBytes_toNat hb]
    exact absurd (hrate.symm.trans (by simp [hz])) (rateOf_ne_zero hb)
  | finalize w p rest hc hd hready _ ht => exact .inl ⟨w, p, rest, hc, hd, hready, by simp [ht]⟩
  | reset rest hc ht => exact .inr ⟨⟨rest, hc⟩, by simp [ht]⟩

theorem step_faultMark {s t : State} (h : step s = .next t) : t.faultMark = s.faultMark := by
  cases step_effect h with
  | quiet n ht => rw [ht]
  | init w p rest bitsize _ _ _ ht => simp [ht]
  | update w p rest bp length _ _ _ _ ht => simp [ht]
  | finalize w p rest _ _ _ _ ht => simp [ht]
  | reset rest _ ht => simp [ht]

/-- Settles O51: no effect writes the mark, and every fault sets it. -/
theorem faultMarkIsSticky : Obligations.FaultMarkIsSticky :=
  ⟨fun _ _ h => step_faultMark h, step_marksFaults⟩

/-! ### The state after reset and the STATUS register -/

/-- Settles O19: `State.reset` is written out field by field. -/
theorem resetStateIsTheScrubbedState : Obligations.ResetStateIsTheScrubbedState :=
  ⟨rfl, rfl, Memory.read_nil, rfl, rfl, rfl, rfl, rfl, rfl, rfl⟩

/-- Settles O22: each field of STATUS is one part of the concatenation. -/
theorem statusRegisterLayout : Obligations.StatusRegisterLayout := by
  intro s
  unfold State.status
  refine ⟨?_, ?_, ?_⟩
  · rw [BitVec.getLsbD_append, if_pos (by decide), BitVec.getLsbD_ofBool]; simp
  · rw [BitVec.extractLsb'_append_eq_of_le (by decide)]
    exact BitVec.extractLsb'_append_eq_right
  · rw [BitVec.extractLsb'_append_eq_of_le (by decide)]
    exact BitVec.extractLsb'_append_eq_left

end Sys2Proof.Machine
end

section
/-! Stale buffer bytes are unobservable (R25, R39): states that differ in them alone take steps of one kind, to states
that again differ in stale bytes alone. -/
namespace Sys2Proof.Machine

/-- The state with another listing in the place of its buffer. -/
def State.withBuffer (m : Memory) (s : State) : State := { s with blockBuffer := m }

/-! ### What the permutation and the padding read of the buffer -/

theorem memRead_congr {m m' : Memory} {addr n : Nat}
    (h : ∀ a, addr ≤ a → a < addr + n → m'.read a = m.read a) : m'.memRead addr n = m.memRead addr n := by
  induction n generalizing addr with
  | zero => rfl
  | succ n ih =>
    rw [Memory.memRead, Memory.memRead, h addr (by omega) (by omega), ih fun a h1 h2 => h a (by omega) (by omega)]

/-- Absorption reads the buffer below the rate only (R111). -/
theorem xorBlock_congr {m m' : Memory} {rate : Nat} (h : ∀ a, a < rate → m'.read a = m.read a) (lanes : Lanes) :
    xorBlock lanes m' rate = xorBlock lanes m rate := by
  refine congrArg Vector.ofFn (funext fun k => ?_)
  by_cases hk : k.val < rate / 8
  · have hread : m'.memRead (8 * k.val) 8 = m.memRead (8 * k.val) 8 :=
      memRead_congr fun a _ ha => h a (by omega)
    simp only [if_pos hk, Memory.laneAt, hread]
  · simp only [if_neg hk]

/-- Padding overwrites every byte from the offset to the rate (R121). -/
theorem read_padBlock_congr {m m' : Memory} (hm : m.wf = true) (hm' : m'.wf = true) {off rate : Nat}
    (ho : off < rate) (hr : rate ≤ Config.bufferSize) (h : ∀ a, a < off → m'.read a = m.read a) :
    ∀ a, a < rate → (padBlock m' off rate).read a = (padBlock m off rate).read a := by
  intro a ha
  rw [read_padBlock hm' ho hr, read_padBlock hm ho hr]
  split
  · rfl
  · exact h a (by omega)

/-- Two buffers alike below the rate are absorbed alike, and each stays in place (R25). -/
theorem absorbBlock_buffer_congr {s : State} {m : Memory}
    (h : ∀ a, a < s.rateBytes.toNat → m.read a = s.blockBuffer.read a) :
    (s.withBuffer m).absorbBlock = s.absorbBlock.withBuffer m := by
  simp only [State.absorbBlock, State.withBuffer, xorBlock_congr h]
  rfl

/-! ### The relation is kept -/

section Agree

variable {s t : State}

theorem AgreeExceptStale.exists_buffer (h : AgreeExceptStale s t) :
    ∃ m : Memory, t = s.withBuffer m ∧ s.blockBuffer.wf = true ∧ m.wf = true ∧
      ∀ a, a < s.bufferOffset.toNat → m.read a = s.blockBuffer.read a :=
  ⟨t.blockBuffer, h.rest, h.leftWf, h.rightWf, h.valid⟩

theorem AgreeExceptStale.rateBytes_eq (h : AgreeExceptStale s t) : t.rateBytes = s.rateBytes := by rw [h.rest]
theorem AgreeExceptStale.bufferOffset_eq (h : AgreeExceptStale s t) : t.bufferOffset = s.bufferOffset := by rw [h.rest]
theorem AgreeExceptStale.phase_eq (h : AgreeExceptStale s t) : t.phase = s.phase := by rw [h.rest]
theorem AgreeExceptStale.channel_eq (h : AgreeExceptStale s t) : t.channel = s.channel := by rw [h.rest]
theorem AgreeExceptStale.payload_eq (h : AgreeExceptStale s t) : t.payload = s.payload := by rw [h.rest]
theorem AgreeExceptStale.config_eq (h : AgreeExceptStale s t) : t.config = s.config := by rw [h.rest]

theorem AgreeExceptStale.spongeOk_eq (h : AgreeExceptStale s t) : t.spongeOk = s.spongeOk := by
  rw [State.spongeOk, h.rateBytes_eq, h.bufferOffset_eq, State.spongeOk]

theorem AgreeExceptStale.transactionNext_eq (h : AgreeExceptStale s t) : t.transactionNext = s.transactionNext := by
  rw [State.transactionNext, h.channel_eq, State.transactionNext]

theorem AgreeExceptStale.refl (h : s.blockBuffer.wf = true) : AgreeExceptStale s s := ⟨h, h, rfl, fun _ _ => rfl⟩

/-- An update that neither reads nor writes the buffer and leaves the offset keeps the relation. -/
theorem AgreeExceptStale.map {f : State → State} (h : AgreeExceptStale s t)
    (hf : ∀ (u : State) (m : Memory), f (u.withBuffer m) = (f u).withBuffer m)
    (hb : (f s).blockBuffer = s.blockBuffer) (ho : (f s).bufferOffset = s.bufferOffset) :
    AgreeExceptStale (f s) (f t) := by
  obtain ⟨m, rfl, hw, hm, hv⟩ := h.exists_buffer
  rw [hf]
  refine ⟨by rwa [hb], hm, rfl, ?_⟩
  rw [hb, ho]
  exact hv

theorem AgreeExceptStale.failed (h : AgreeExceptStale s t) (code : ErrCode) :
    AgreeExceptStale (s.failed code) (t.failed code) := h.map (f := State.failed code) (fun _ _ => rfl) rfl rfl

theorem AgreeExceptStale.completed (h : AgreeExceptStale s t) : AgreeExceptStale s.completed t.completed :=
  h.map (fun _ _ => rfl) rfl rfl

theorem AgreeExceptStale.accept (h : AgreeExceptStale s t) (p : List Byte) (rest : List HostMove) :
    AgreeExceptStale (s.accept p rest) (t.accept p rest) := h.map (f := State.accept p rest) (fun _ _ => rfl) rfl rfl

theorem AgreeExceptStale.moveTaken (h : AgreeExceptStale s t) (rest : List HostMove) :
    AgreeExceptStale (s.moveTaken rest) (t.moveTaken rest) := h.map (f := State.moveTaken rest) (fun _ _ => rfl) rfl rfl

theorem AgreeExceptStale.takeDigest (h : AgreeExceptStale s t) (n : Nat) :
    AgreeExceptStale (s.takeDigest n) (t.takeDigest n) := h.map (f := State.takeDigest n) (fun _ _ => rfl) rfl rfl

/-- A stored byte is no longer stale in either state. -/
theorem AgreeExceptStale.storeByte (h : AgreeExceptStale s t) (hlt : s.bufferOffset.toNat < Config.bufferSize)
    (b : Byte) : AgreeExceptStale (s.storeByte b) (t.storeByte b) := by
  obtain ⟨m, rfl, hw, hm, hv⟩ := h.exists_buffer
  refine ⟨Memory.wf_write hw _ _, Memory.wf_write hm _ _, rfl, fun a ha => ?_⟩
  have hle : a < s.bufferOffset.toNat + 1 :=
    lt_of_lt_of_le ha (by rw [storeByte_bufferOffset, BitVec.toNat_add]; exact Nat.mod_le _ _)
  change (m.write s.bufferOffset.toNat b).read a = (s.blockBuffer.write s.bufferOffset.toNat b).read a
  rw [Memory.read_write hw hlt, Memory.read_write hm hlt]
  split
  · rfl
  · exact hv a (by omega)

/-- A full buffer holds no stale byte below the rate, so both states absorb the same block. -/
theorem AgreeExceptStale.absorbBlock (h : AgreeExceptStale s t) (hfull : s.rateBytes.toNat ≤ s.bufferOffset.toNat) :
    AgreeExceptStale s.absorbBlock t.absorbBlock := by
  obtain ⟨m, rfl, hw, hm, hv⟩ := h.exists_buffer
  rw [absorbBlock_buffer_congr fun a ha => hv a (by omega)]
  exact ⟨hw, hm, rfl, fun a ha => absurd ha (Nat.not_lt_zero a)⟩

theorem AgreeExceptStale.absorbByte (h : AgreeExceptStale s t) (hs : s.spongeOk = true) (b : Byte) :
    AgreeExceptStale (s.absorbByte b) (t.absorbByte b) := by
  obtain ⟨hr, hlt⟩ := spongeOk_iff.1 hs
  obtain ⟨-, hle, -⟩ := legalRate_bounds hr
  have hstore := h.storeByte (by omega) b
  rcases absorbByte_cases s b with ⟨hne, he⟩ | ⟨hfull, he⟩
  · rw [he, State.absorbByte, if_neg (by simpa [h.bufferOffset_eq, h.rateBytes_eq] using hne)]
    exact hstore
  · rw [he, State.absorbByte, if_pos (by simpa [h.bufferOffset_eq, h.rateBytes_eq] using hfull)]
    exact hstore.absorbBlock (by rw [storeByte_bufferOffset, hfull, storeByte_rateBytes])

theorem AgreeExceptStale.absorbBytes (h : AgreeExceptStale s t) (hs : s.spongeOk = true) (data : List Byte) :
    AgreeExceptStale (s.absorbBytes data) (t.absorbBytes data) := by
  induction data generalizing s t with
  | nil => exact h
  | cons b data ih => exact ih (h.absorbByte hs b) (spongeOk_absorbByte hs b)

theorem AgreeExceptStale.initBody_eq (h : AgreeExceptStale s t) (bitsize : Nat) :
    initBody bitsize t = initBody bitsize s := by
  rw [h.rest]
  rfl

theorem AgreeExceptStale.assertReset_eq (h : AgreeExceptStale s t) : t.assertReset = s.assertReset := by
  rw [h.rest]
  rfl

/-- FINALIZE pads over the stale bytes, and the scrub leaves no buffer byte. -/
theorem AgreeExceptStale.finalizeBody_eq (h : AgreeExceptStale s t) (hs : s.spongeOk = true) :
    finalizeBody t = finalizeBody s := by
  obtain ⟨hr, hlt⟩ := spongeOk_iff.1 hs
  obtain ⟨-, hle, -⟩ := legalRate_bounds hr
  obtain ⟨m, rfl, hw, hm, hv⟩ := h.exists_buffer
  have hpad := read_padBlock_congr hw hm hlt hle hv
  have habsorb : (s.withBuffer m).pad.absorbBlock =
      s.pad.absorbBlock.withBuffer (padBlock m s.bufferOffset.toNat s.rateBytes.toNat) :=
    absorbBlock_buffer_congr (s := s.pad) hpad
  rw [finalizeBody, habsorb]
  rfl

theorem AgreeExceptStale.possible_iff (h : AgreeExceptStale s t) : Possible s ↔ Possible t := by
  obtain ⟨m, rfl, -⟩ := h.exists_buffer
  exact ⟨fun hp => hp.congr rfl rfl rfl, fun hp => hp.congr rfl rfl rfl⟩

theorem AgreeExceptStale.observation_eq {s' t' : State} (h : AgreeExceptStale s t) (h' : AgreeExceptStale s' t') :
    observation s s' = observation t t' := by
  rw [h.rest, h'.rest]
  rfl

end Agree

/-! ### Outcomes that the host cannot tell apart -/

/-- Two steps of one kind, whose next states, where they have one, differ in stale bytes alone. -/
inductive SameCourse : Result → Result → Prop
  | next {s t : State} (h : AgreeExceptStale s t) : SameCourse (.next s) (.next t)
  | fault (f g : Fault) : SameCourse (.fault f) (.fault g)
  | refused (r q : Refusal) : SameCourse (.refused r) (.refused q)

section Course

variable {s t : State}

theorem SameCourse.ite {c : Prop} [Decidable c] {a b a' b' : Result} (ha : c → SameCourse a a')
    (hb : ¬ c → SameCourse b b') : SameCourse (if c then a else b) (if c then a' else b') := by
  split
  · next hc => exact ha hc
  · next hc => exact hb hc

theorem SameCourse.whenPossible (h : AgreeExceptStale s t) {run : State → Result}
    (hrun : SameCourse (run s) (run t)) : SameCourse (whenPossible s run) (whenPossible t run) := by
  cases hi : impossibleState s with
  | none =>
    have hp := impossibleState_eq_none.1 hi
    rw [whenPossible_of_possible hp, whenPossible_of_possible (h.possible_iff.1 hp)]
    exact hrun
  | some f =>
    cases hj : impossibleState t with
    | none =>
      have hp := impossibleState_eq_none.2 (h.possible_iff.2 (impossibleState_eq_none.1 hj))
      simp [hi] at hp
    | some g =>
      rw [whenPossible_of_impossible hi, whenPossible_of_impossible hj]
      exact .fault f g

theorem SameCourse.transact (h : AgreeExceptStale s t) {n : Nat} {run : State → Result}
    (hrun : SameCourse (run s) (run t)) : SameCourse (transact n s run) (transact n t run) := by
  simp only [Machine.transact, h.payload_eq]
  exact .ite (fun _ => .whenPossible h hrun) (fun _ => .refused _ _)

theorem SameCourse.whenReady (h : AgreeExceptStale s t) {body : State → Result}
    (hbody : s.spongeOk = true → SameCourse (body s) (body t)) :
    SameCourse (whenReady s body) (whenReady t body) := by
  simp only [Machine.whenReady, h.phase_eq, h.spongeOk_eq, h.config_eq]
  exact .ite (fun _ => .ite hbody fun _ => .fault _ _)
    fun _ => .ite (fun _ => .next (h.failed _)) fun _ => .fault _ _

theorem execInit_sameCourse (h : AgreeExceptStale s t) (hp : Bool) (bitsize : Nat) :
    SameCourse (execInit hp bitsize s) (execInit hp bitsize t) := by
  refine .transact h (.ite (fun _ => .next (h.failed _)) fun _ =>
    .ite (fun _ => .next (h.failed _)) fun _ => .next ?_)
  rw [h.initBody_eq]
  exact .refl rfl

theorem execUpdate_sameCourse (h : AgreeExceptStale s t) (hp bp : Bool) (length : Nat) :
    SameCourse (execUpdate hp bp length s) (execUpdate hp bp length t) := by
  refine .transact h (.ite (fun _ => .next (h.failed _)) fun _ =>
    .ite (fun _ => .next (h.failed _)) fun _ => .whenReady h fun hs => .next ?_)
  rw [h.payload_eq]
  exact (h.absorbBytes hs _).completed

theorem execFinalize_sameCourse (h : AgreeExceptStale s t) (hp bp : Bool) :
    SameCourse (execFinalize hp bp s) (execFinalize hp bp t) := by
  refine .transact h (.ite (fun _ => .next (h.failed _)) fun _ =>
    .ite (fun _ => .next (h.failed _)) fun _ => .whenReady h fun hs => .next ?_)
  rw [h.finalizeBody_eq hs]
  exact .refl rfl

theorem exec_sameCourse (h : AgreeExceptStale s t) (i : Instr) : SameCourse (exec i s) (exec i t) := by
  cases i with
  | init hp bitsize => exact execInit_sameCourse h hp bitsize
  | update hp bp length => exact execUpdate_sameCourse h hp bp length
  | finalize hp bp => exact execFinalize_sameCourse h hp bp

theorem reset_sameCourse (h : AgreeExceptStale s t) (rest : List HostMove) :
    SameCourse (.next (s.moveTaken rest).assertReset) (.next (t.moveTaken rest).assertReset) := by
  rw [(h.moveTaken rest).assertReset_eq]
  exact .next (.refl rfl)

theorem step_sameCourse (h : AgreeExceptStale s t) : SameCourse (step s) (step t) := by
  cases hc : s.channel with
  | nil =>
    rw [step_idle hc, step_idle (h.channel_eq.trans hc)]
    exact .next h
  | cons move rest =>
    have hc' := h.channel_eq.trans hc
    cases move with
    | transaction w p =>
      cases hd : decode w with
      | ok i =>
        rw [step_command hc hd, step_command hc' hd]
        exact exec_sameCourse (h.accept p rest) i
      | error e =>
        rw [step_illegal hc hd, step_illegal hc' hd]
        have ha := h.accept p rest
        exact .transact ha (.next (ha.failed _))
    | reset =>
      rw [step_reset (.inl hc), step_reset (.inl hc')]
      exact reset_sameCourse h rest
    | resetDuring w p =>
      rw [step_reset (.inr ⟨w, p, hc⟩), step_reset (.inr ⟨w, p, hc'⟩)]
      exact reset_sameCourse h rest
    | readStatus =>
      rw [step_readStatus hc, step_readStatus hc']
      exact .whenPossible (h.moveTaken rest) (.next (h.moveTaken rest))
    | takeDigest n =>
      rw [step_takeDigest hc, step_takeDigest hc']
      exact .whenPossible (h.moveTaken rest) (.next ((h.moveTaken rest).takeDigest n))

end Course

/-! ### The observation of a run -/

theorem observe_succ_next {k : Nat} {s t : State} (h : step s = .next t) :
    (observe (k + 1) s).map (fun r => r.2) =
      ((observe k t).map fun r => r.2).map fun seen =>
        if s.transactionNext then observation s t :: seen else seen := by
  simp only [observe, h]
  cases observe k t <;> rfl

theorem observe_succ_fault {k : Nat} {s : State} {f : Fault} (h : step s = .fault f) : observe (k + 1) s = none := by
  simp [observe, h]

theorem observe_succ_refused {k : Nat} {s : State} {r : Refusal} (h : step s = .refused r) :
    observe (k + 1) s = none := by
  simp [observe, h]

/-- Settles O55, by induction on the number of steps: the two runs go the same course at each step. -/
theorem staleBytesAreUnobservable : Obligations.StaleBytesAreUnobservable := by
  intro k
  induction k with
  | zero => intro s t _; rfl
  | succ k ih =>
    intro s t h
    have hcourse := step_sameCourse h
    generalize hs : step s = r, ht : step t = q at hcourse
    cases hcourse with
    | next h' => rw [observe_succ_next hs, observe_succ_next ht, ih _ _ h', h.transactionNext_eq, h.observation_eq h']
    | fault f g => rw [observe_succ_fault hs, observe_succ_fault ht]
    | refused r q => rw [observe_succ_refused hs, observe_succ_refused ht]

end Sys2Proof.Machine
end

section
/-! The buffer as little-endian numbers (R46): each byte of a number read from it, and what a number written to it
reads as; and the reads of STATUS (R52). -/
namespace Sys2Proof.Machine

/-! ### The bytes of a number read from the buffer -/

/-- Byte `k` of the value is found by dropping the `k` bytes below it, one address at a time. -/
theorem byte_memRead {m : Memory} {addr n k : Nat} (hk : k < n) :
    m.memRead addr n / 2 ^ (8 * k) % 2 ^ 8 = (m.read (addr + k)).toNat := by
  induction n generalizing addr k with
  | zero => omega
  | succ n ih =>
    have hbyte := (m.read addr).isLt
    rw [Memory.memRead]
    cases k with
    | zero =>
      rw [Nat.mul_zero, Nat.pow_zero, Nat.div_one, Nat.add_mul_mod_self_left, Nat.mod_eq_of_lt hbyte, Nat.add_zero]
    | succ k =>
      have hdrop : ((m.read addr).toNat + 2 ^ 8 * m.memRead (addr + 1) n) / 2 ^ 8 = m.memRead (addr + 1) n := by omega
      rw [Nat.mul_succ, Nat.add_comm (8 * k), Nat.pow_add, ← Nat.div_div_eq_div_mul, hdrop, ih (by omega),
        Nat.add_right_comm, Nat.add_assoc]

/-- Settles O16: the lane is the number read at `8i`, and its byte `k` is byte `k` of that number. -/
theorem memReadIsLittleEndian : Obligations.MemReadIsLittleEndian := by
  intro m i k hk
  apply BitVec.eq_of_toNat_eq
  have hfits : 2 ^ 64 = 2 ^ (8 * k) * (2 ^ 8 * 2 ^ (56 - 8 * k)) := by
    rw [← Nat.pow_add, ← Nat.pow_add]; congr 1; omega
  calc ((m.laneAt i).extractLsb' (8 * k) 8).toNat
      = m.memRead (8 * i) 8 % 2 ^ 64 / 2 ^ (8 * k) % 2 ^ 8 := by
        rw [Memory.laneAt, BitVec.extractLsb'_toNat, BitVec.toNat_ofNat, Nat.shiftRight_eq_div_pow]
    _ = m.memRead (8 * i) 8 / 2 ^ (8 * k) % 2 ^ 8 := by
        rw [hfits, Nat.mod_mul_right_div_self, Nat.mod_mul_right_mod]
    _ = (m.read (8 * i + k)).toNat := byte_memRead hk

/-! ### A number written to the buffer -/

theorem read_memWrite_outside {m : Memory} (h : m.wf = true) {addr n a : Nat} (v : Nat)
    (ha : a < addr ∨ addr + n ≤ a) : (m.memWrite addr n v).read a = m.read a := by
  induction n generalizing m addr v with
  | zero => rfl
  | succ n ih => rw [Memory.memWrite, ih (Memory.wf_write h _ _) _ (by omega), Memory.read_write_ne h _ _ (by omega)]

/-- The first byte written stands below the range of the later ones, so they leave it as `v mod 2^8`. -/
theorem memRead_memWrite {m : Memory} (h : m.wf = true) {addr n : Nat} (v : Nat)
    (hfit : addr + n ≤ Config.bufferSize) : (m.memWrite addr n v).memRead addr n = v % 2 ^ (8 * n) := by
  induction n generalizing m addr v with
  | zero => rw [Nat.mul_zero, Nat.pow_zero, Nat.mod_one]; rfl
  | succ n ih =>
    have hwf := Memory.wf_write h addr (BitVec.ofNat 8 v)
    have hfirst : (m.memWrite addr (n + 1) v).read addr = BitVec.ofNat 8 v := by
      rw [Memory.memWrite, read_memWrite_outside hwf _ (by omega), Memory.read_write h (by omega), if_pos rfl]
    have hlater : (m.memWrite addr (n + 1) v).memRead (addr + 1) n = v / 2 ^ 8 % 2 ^ (8 * n) := ih hwf _ (by omega)
    rw [Memory.memRead, hfirst, hlater, BitVec.toNat_ofNat, Nat.mul_succ, Nat.add_comm (8 * n), Nat.pow_add, Nat.mod_mul]

/-- Settles O17: the value read back and the bytes outside, each by induction on the number of bytes. -/
theorem memWriteThenMemRead : Obligations.MemWriteThenMemRead := by
  intro m addr n v h hfit
  exact ⟨memRead_memWrite h v hfit, fun a ha => read_memWrite_outside h v ha⟩

/-! ### Reads of STATUS -/

theorem step_readStatus_of_possible {s : State} {rest : List HostMove} (hp : Possible s)
    (hc : s.channel = .readStatus :: rest) : step s = .next (s.moveTaken rest) := by
  rw [step_readStatus hc, whenPossible_of_possible (hp.moveTaken rest)]

/-- Settles O23, by induction on the number of reads: each takes itself off the channel and leaves a possible state. -/
theorem statusReadsHaveNoSideEffect : Obligations.StatusReadsHaveNoSideEffect := by
  intro s n rest hp hc
  induction n generalizing s with
  | zero =>
    have hrest : rest = s.channel := hc.symm
    rw [steps_zero, hrest]
  | succ n ih =>
    have hnext : s.channel = .readStatus :: (List.replicate n .readStatus ++ rest) := hc
    rw [steps_succ (step_readStatus_of_possible hp hnext), ih _ (hp.moveTaken _) rfl]
    rfl

end Sys2Proof.Machine
end

section
/-! The command word: a word is the packing of its own fields (R66), the decoder as an equivalence on those fields (R74), and
the masks of R68 as a comparison field by field. -/
namespace Sys2Proof

/-! ### A word and its fields -/

theorem rsvField_lt (w : Word) : rsvField w < 1024 := by
  rw [rsvField_eq]
  exact Nat.mod_lt _ (by decide)

theorem opField_lt (w : Word) : opField w < 16 := by
  rw [opField_eq]
  exact Nat.mod_lt _ (by decide)

/-- ARG is the top of the word, so nothing stands above it to cut off. -/
theorem argField_eq_div (w : Word) : argField w = w.toNat / 65536 := by
  rw [argField_eq, Nat.mod_eq_of_lt]
  have := w.isLt
  omega

theorem hpField_toNat (w : Word) : (hpField w).toNat = w.toNat / 16 % 2 := by
  rw [hpField_eq, Bool.toNat, Bool.cond_decide]
  split <;> omega

theorem bpField_toNat (w : Word) : (bpField w).toNat = w.toNat / 32 % 2 := by
  rw [bpField_eq, Bool.toNat, Bool.cond_decide]
  split <;> omega

/-- The five fields cover the word: packing them gives it back (R66). -/
theorem packWord_fields (w : Word) :
    packWord (argField w) (rsvField w) (bpField w) (hpField w) (opField w) = w := by
  apply BitVec.eq_of_toNat_eq
  rw [packWord_toNat (argField_lt w) (rsvField_lt w) (opField_lt w), argField_eq_div, rsvField_eq, bpField_toNat,
    hpField_toNat, opField_eq]
  omega

theorem packWord_inj {arg arg' rsv rsv' op op' : Nat} {bp bp' hp hp' : Bool} (ha : arg < 65536) (hr : rsv < 1024)
    (ho : op < 16) (ha' : arg' < 65536) (hr' : rsv' < 1024) (ho' : op' < 16) :
    packWord arg rsv bp hp op = packWord arg' rsv' bp' hp' op' ↔
      arg = arg' ∧ rsv = rsv' ∧ bp = bp' ∧ hp = hp' ∧ op = op' := by
  constructor
  · intro h
    refine ⟨?_, ?_, ?_, ?_, ?_⟩
    · rw [← argField_packWord ha hr ho, h, argField_packWord ha' hr' ho']
    · rw [← rsvField_packWord ha hr ho, h, rsvField_packWord ha' hr' ho']
    · rw [← bpField_packWord (bp := bp) (hp := hp) ha hr ho, h, bpField_packWord ha' hr' ho']
    · rw [← hpField_packWord (bp := bp) (hp := hp) ha hr ho, h, hpField_packWord ha' hr' ho']
    · rw [← opField_packWord ha hr ho, h, opField_packWord ha' hr' ho']
  · rintro ⟨rfl, rfl, rfl, rfl, rfl⟩
    rfl

/-! ### Decoding and encoding -/

/-- The decoder's results as an equivalence on the fields: `decode_ok` and its converse (R74). -/
theorem decode_eq_ok_iff {w : Word} {i : Instr} : decode w = .ok i ↔
    rsvField w = 0 ∧
    ((opField w = 1 ∧ bpField w = false ∧ i = .init (hpField w) (argField w)) ∨
     (opField w = 2 ∧ i = .update (hpField w) (bpField w) (argField w)) ∨
     (opField w = 3 ∧ argField w = 0 ∧ i = .finalize (hpField w) (bpField w))) := by
  constructor
  · exact decode_ok
  · rintro ⟨hr, ⟨ho, hb, rfl⟩ | ⟨ho, rfl⟩ | ⟨ho, ha, rfl⟩⟩
    · simp [decode, hr, ho, hb]
    · simp [decode, hr, ho]
    · simp [decode, hr, ho, ha]

theorem fitsArg_iff {n : Nat} : fitsArg n = true ↔ n < 65536 := decide_eq_true_iff

/-- Settles O1: every field of the packed word reads back as it was packed, so the decoder meets the command's own row. -/
theorem decodeOfEncodeIsTheCommand : Obligations.DecodeOfEncodeIsTheCommand := by
  intro i hwf
  rw [decode_eq_ok_iff]
  cases i with
  | init hp bitsize =>
    have ha : bitsize < 65536 := fitsArg_iff.1 hwf
    simp [encode, rsvField_packWord, opField_packWord, bpField_packWord, hpField_packWord, argField_packWord, ha]
  | update hp bp length =>
    have ha : length < 65536 := fitsArg_iff.1 hwf
    simp [encode, rsvField_packWord, opField_packWord, bpField_packWord, hpField_packWord, argField_packWord, ha]
  | finalize hp bp =>
    simp [encode, rsvField_packWord, opField_packWord, bpField_packWord, hpField_packWord, argField_packWord]

/-- Settles O2: the encoder packs the word's own fields, its constants being the values that the decoder has checked. -/
theorem encodeOfDecodeIsTheWord : Obligations.EncodeOfDecodeIsTheWord := by
  intro w i hd
  have hfields := packWord_fields w
  obtain ⟨hr, ⟨ho, hb, rfl⟩ | ⟨ho, rfl⟩ | ⟨ho, ha, rfl⟩⟩ := decode_ok hd
  · rw [hr, hb, ho] at hfields
    exact ⟨fitsArg_iff.2 (argField_lt w), hfields⟩
  · rw [hr, ho] at hfields
    exact ⟨fitsArg_iff.2 (argField_lt w), hfields⟩
  · rw [ha, hr, ho] at hfields
    exact ⟨rfl, hfields⟩

/-! ### The masks of the opcode map -/

theorem packWord_and (arg arg' rsv rsv' op op' : Nat) (bp bp' hp hp' : Bool) :
    packWord arg rsv bp hp op &&& packWord arg' rsv' bp' hp' op' =
      packWord (arg &&& arg') (rsv &&& rsv') (bp && bp') (hp && hp') (op &&& op') := by
  simp only [packWord, BitVec.ofNat_and, ← BitVec.ofBool_and_ofBool, ← BitVec.and_append]

/-- Masking a word masks each field by itself, and the result is compared field by field. -/
theorem and_packWord_eq_iff (w : Word) {arg arg' rsv rsv' op op' : Nat} {bp bp' hp hp' : Bool} (ha' : arg' < 65536)
    (hr' : rsv' < 1024) (ho' : op' < 16) :
    w &&& packWord arg rsv bp hp op = packWord arg' rsv' bp' hp' op' ↔
      argField w &&& arg = arg' ∧ rsvField w &&& rsv = rsv' ∧ (bpField w && bp) = bp' ∧ (hpField w && hp) = hp' ∧
        opField w &&& op = op' := by
  have ha : argField w &&& arg < 65536 := Nat.and_le_left.trans_lt (argField_lt w)
  have hr : rsvField w &&& rsv < 1024 := Nat.and_le_left.trans_lt (rsvField_lt w)
  have ho : opField w &&& op < 16 := Nat.and_le_left.trans_lt (opField_lt w)
  rw [← packWord_inj ha hr ho ha' hr' ho', ← packWord_and, packWord_fields]

theorem argField_and_full (w : Word) : argField w &&& 65535 = argField w :=
  (Nat.and_two_pow_sub_one_eq_mod _ 16).trans (Nat.mod_eq_of_lt (argField_lt w))

theorem rsvField_and_full (w : Word) : rsvField w &&& 1023 = rsvField w :=
  (Nat.and_two_pow_sub_one_eq_mod _ 10).trans (Nat.mod_eq_of_lt (rsvField_lt w))

theorem opField_and_full (w : Word) : opField w &&& 15 = opField w :=
  (Nat.and_two_pow_sub_one_eq_mod _ 4).trans (Nat.mod_eq_of_lt (opField_lt w))

/-- INIT's row looks at RSV, BP and OP (R68). -/
theorem selects_init_iff (w : Word) :
    w &&& 0x0000FFEF = 0x00000001 ↔ rsvField w = 0 ∧ opField w = 1 ∧ bpField w = false := by
  have hmask : (0x0000FFEF : Word) = packWord 0 1023 true false 15 := by decide
  have hmatch : (0x00000001 : Word) = packWord 0 0 false false 1 := by decide
  rw [hmask, hmatch, and_packWord_eq_iff w (by decide) (by decide) (by decide), rsvField_and_full, opField_and_full]
  simp [and_comm]

/-- UPDATE's row looks at RSV and OP (R68). -/
theorem selects_update_iff (w : Word) : w &&& 0x0000FFCF = 0x00000002 ↔ rsvField w = 0 ∧ opField w = 2 := by
  have hmask : (0x0000FFCF : Word) = packWord 0 1023 false false 15 := by decide
  have hmatch : (0x00000002 : Word) = packWord 0 0 false false 2 := by decide
  rw [hmask, hmatch, and_packWord_eq_iff w (by decide) (by decide) (by decide), rsvField_and_full, opField_and_full]
  simp

/-- FINALIZE's row looks at ARG, RSV and OP (R68). -/
theorem selects_finalize_iff (w : Word) :
    w &&& 0xFFFFFFCF = 0x00000003 ↔ rsvField w = 0 ∧ opField w = 3 ∧ argField w = 0 := by
  have hmask : (0xFFFFFFCF : Word) = packWord 65535 1023 false false 15 := by decide
  have hmatch : (0x00000003 : Word) = packWord 0 0 false false 3 := by decide
  rw [hmask, hmatch, and_packWord_eq_iff w (by decide) (by decide) (by decide), argField_and_full, rsvField_and_full,
    opField_and_full]
  simp [and_comm, and_assoc]

/-- Settles O3: a row's mask selects by exactly the fields on which the decoder reads a command of that row. -/
theorem decodeSelectsByMaskAndMatch : Obligations.DecodeSelectsByMaskAndMatch := by
  intro w
  rw [selects_init_iff, selects_update_iff, selects_finalize_iff]
  refine ⟨?_, ?_, ?_⟩ <;> simp [decode_eq_ok_iff]

end Sys2Proof
end

section
/-! The announced payload length of a word (R73), and the two transactions that no command meets: the one whose payload
has another length, and the one whose word is reserved (R69 to R71). -/
namespace Sys2Proof.Machine

theorem announced_eq (w : Word) :
    announced w = if w.toNat % 16 = 2 ∧ w.toNat / 32 % 2 = 1 then w.toNat / 65536 else 0 := by
  simp only [announced, opField_eq, bpField_eq, argField_eq_div, decide_eq_true_eq]

/-- Settles O5: the fields of the definition are these bits of the word, and a decoded command keeps them. -/
theorem announcedLengthOfAWord : Obligations.AnnouncedLengthOfAWord :=
  fun w => ⟨announced_eq w, fun _ hd => announced_of_decode hd⟩

/-- The boundary check of R73 comes before every other check. -/
theorem transact_of_length_ne {n : Nat} {s : State} (hp : s.payload.length ≠ n) (run : State → Result) :
    transact n s run = .refused (.illFormedTransaction n s.payload.length) :=
  if_neg hp

/-- Settles O27: every transaction stands behind the boundary check on its word's announced length. -/
theorem illFormedTransactionIsRefused : Obligations.IllFormedTransactionIsRefused := by
  intro s w p rest hc hl
  obtain ⟨run, hstep⟩ := step_transaction hc
  have hdelivered : (s.accept p rest).payload.length ≠ announced w := hl
  rw [hstep, transact_of_length_ne hdelivered, accept_payload]

/-- The decoder rejects every reserved form (R69 to R71). -/
theorem decode_error_of_reserved {w : Word}
    (h : opField w = 0 ∨ 4 ≤ opField w ∨ rsvField w ≠ 0 ∨ (opField w = 1 ∧ bpField w = true) ∨
      (opField w = 3 ∧ argField w ≠ 0)) : ∃ e, decode w = .error e := by
  cases hd : decode w with
  | error e => exact ⟨e, rfl⟩
  | ok i =>
    obtain ⟨hr, ⟨ho, hb, -⟩ | ⟨ho, -⟩ | ⟨ho, ha, -⟩⟩ := decode_ok hd
    · simp [hr, ho, hb] at h
    · simp [hr, ho] at h
    · simp [hr, ho, ha] at h

/-- Settles O6: the decoder rejects the word, and a rejected word ends with the one shared error. -/
theorem reservedWordsAreIllegalCommands : Obligations.ReservedWordsAreIllegalCommands := by
  intro s w p rest hpos hc hl hbits
  rw [← opField_eq, ← rsvField_eq, ← bpField_toNat, ← argField_eq_div, Bool.toNat_eq_one] at hbits
  obtain ⟨e, hd⟩ := decode_error_of_reserved hbits
  have hdelivered : (s.accept p rest).payload.length = announced w := hl
  rw [step_illegal hc hd, execIllegal, transact_of_possible hdelivered (hpos.accept p rest)]
  rfl

end Sys2Proof.Machine
end

section
/-! The five step mappings of Keccak-f[1600] on the coordinates `A[x,y]` (R86 to R91): what each output lane is, and that
the two constant tables are the ones their rules generate. -/
namespace Sys2Proof.Machine

/-! ### Lane arrays by coordinates (R11) -/

@[simp] theorem lane_mod_left (a : Lanes) (x y : Nat) : lane a (x % 5) y = lane a x y := by
  simp only [lane, Nat.mod_mod]

@[simp] theorem lane_mod_right (a : Lanes) (x y : Nat) : lane a x (y % 5) = lane a x y := by
  simp only [lane, Nat.mod_mod]

theorem lane_congr (a : Lanes) {x x' y y' : Nat} (hx : x % 5 = x' % 5) (hy : y % 5 = y' % 5) :
    lane a x y = lane a x' y' := by
  simp only [lane, hx, hy]

theorem lane_lanesOf (f : Nat → Nat → Lane) (x y : Nat) : lane (lanesOf f) x y = f (x % 5) (y % 5) := by
  have hx : (x % 5 + 5 * (y % 5)) % 5 = x % 5 := by omega
  have hy : (x % 5 + 5 * (y % 5)) / 5 = y % 5 := by omega
  simp only [lane, lanesOf, Vector.getElem_ofFn, hx, hy]

theorem getElem_eq_lane (a : Lanes) {i : Nat} (hi : i < 25) : a[i] = lane a (i % 5) (i / 5) := by
  have hindex : i % 5 % 5 + 5 * (i / 5 % 5) = i := by omega
  simp only [lane, hindex]

/-- Two lane arrays with the same `A[x,y]` everywhere are equal. -/
theorem lanes_ext {a b : Lanes} (h : ∀ x y, lane a x y = lane b x y) : a = b := by
  refine Vector.ext fun i hi => ?_
  rw [getElem_eq_lane a hi, getElem_eq_lane b hi, h]

/-! ### theta -/

/-- `C[x]` is the parity of column `x` (R86). -/
theorem column_thetaC (a : Lanes) (x : Nat) :
    column (thetaC a) x = lane a x 0 ^^^ lane a x 1 ^^^ lane a x 2 ^^^ lane a x 3 ^^^ lane a x 4 := by
  simp [column, thetaC]

theorem column_thetaD (c : Vector Lane 5) (x : Nat) :
    column (thetaD c) x = column c (x + 4) ^^^ rotl (column c (x + 1)) 1 := by
  simp [column, thetaD]

theorem lane_theta (a : Lanes) (x y : Nat) :
    lane (theta a) x y =
      lane a x y ^^^ (column (thetaC a) (x + 4) ^^^ rotl (column (thetaC a) (x + 1)) 1) := by
  rw [← column_thetaD, theta, lane_lanesOf]
  simp [column]

theorem rotl_zero (n : Nat) : rotl 0 n = 0 := by simp [rotl]

/-- Settles O8: a column with parity 0 adds nothing to its neighbours. -/
theorem thetaAddsColumnParities : Obligations.ThetaAddsColumnParities := by
  intro a
  refine ⟨fun x y _ _ => ?_, fun hzero => lanes_ext fun x y => ?_⟩
  · rw [lane_theta, column_thetaC, column_thetaC]
  · have hparity (x : Nat) : column (thetaC a) x = 0 := by
      have := hzero (x % 5) (Nat.mod_lt _ (by decide))
      simpa only [column_thetaC, lane_mod_left] using this
    rw [lane_theta, hparity, hparity, rotl_zero, BitVec.xor_self, BitVec.xor_zero]

/-! ### rho -/

theorem getElem_rho (a : Lanes) (i : Fin 25) : (rho a)[i] = rotl a[i] rhoTable[i] := by
  simp [rho]

/-- The printed offsets are the walk's (R88), and each is a rotation amount of R12. -/
theorem rhoTable_eq_generated : ∀ i : Fin 25, rhoTable[i] = rhoGenerated i.val ∧ rhoTable[i] ≤ 63 := by decide

/-- Settles O9: each lane is rotated by its offset of the table. -/
theorem rhoRotatesByTheTable : Obligations.RhoRotatesByTheTable := by
  intro a i
  obtain ⟨hwalk, hle⟩ := rhoTable_eq_generated i
  refine ⟨hwalk, hle, fun z hz => ?_⟩
  rw [getElem_rho]
  exact getLsbD_rotl_add_mod a[i] (by omega) hz

/-! ### pi -/

theorem lane_pi (a : Lanes) (x y : Nat) : lane (pi a) x y = lane a (x + 3 * y) x := by
  rw [pi, lane_lanesOf]
  exact lane_congr a (by omega) (by omega)

/-! ### chi -/

theorem lane_chi (a : Lanes) (x y : Nat) :
    lane (chi a) x y = lane a x y ^^^ (~~~ lane a (x + 1) y &&& lane a (x + 2) y) := by
  rw [chi, lane_lanesOf]
  simp only [lane, Nat.mod_mod, Nat.mod_add_mod]

theorem getLsbD_lane_chi (a : Lanes) (x y : Nat) {z : Nat} (hz : z < 64) :
    (lane (chi a) x y).getLsbD z =
      ((lane a x y).getLsbD z ^^ (!(lane a (x + 1) y).getLsbD z && (lane a (x + 2) y).getLsbD z)) := by
  simp [lane_chi, hz]

/-- Settles O11: in a row of equal lanes `v` the added term is `¬v ∧ v`. -/
theorem chiActsOnRows : Obligations.ChiActsOnRows := by
  intro a y _
  refine ⟨fun x z _ hz => getLsbD_lane_chi a x y hz, fun v _ hrow x _ => ?_⟩
  have hv (x : Nat) : lane a x y = v := by
    have := hrow (x % 5) (Nat.mod_lt _ (by decide))
    rwa [lane_mod_left] at this
  rw [lane_chi, hv, hv, hv]
  simp

/-! ### iota -/

/-- The printed round constants are the LFSR's (R92). -/
theorem rcTable_eq_generated : ∀ ir : Fin 24, rcTable[ir] = rcGenerated ir.val := by decide +kernel

theorem iota_zero (a : Lanes) (ir : Fin 24) : (iota a ir)[0] = a[0] ^^^ rcTable[ir] := by
  simp [iota]

theorem iota_ne_zero (a : Lanes) (ir : Fin 24) {i : Nat} (hi : i < 25) (hne : i ≠ 0) : (iota a ir)[i] = a[i] := by
  simp [iota, Vector.getElem_set_ne, hne.symm]

/-- Settles O12: lane 0 takes the table's constant, which is the generated one. -/
theorem iotaChangesLaneZeroOnly : Obligations.IotaChangesLaneZeroOnly := by
  intro a ir
  refine ⟨?_, fun i hi => iota_ne_zero a ir i.isLt (by omega)⟩
  rw [iota_zero, rcTable_eq_generated]

end Sys2Proof.Machine
end

section
/-! Keccak-f[1600] as a permutation of the lane arrays (R94, R96): each step mapping is injective, so the 24 rounds are,
and the lane arrays are finitely many. -/
namespace Sys2Proof.Machine

/-! ### theta is injective

theta is undone once the column parities are known, and the parities of input and output are related within the
five columns alone: `C'[x] = C[x] ⊕ C[x−1] ⊕ rotl(C[x+1], 1)`. So two inputs with one output have column parities whose
difference `p` obeys `p x z = p (x−1) z ⊕ p (x+1) (z−1)`, and that has only the zero solution. -/

/-- A relation to two neighbours, substituted into itself, gives the one with all distances doubled, since the mixed
term occurs twice. -/
theorem neighbours_doubled {p : Nat → Nat → Bool} {m n l : Nat}
    (h : ∀ x z, p x z = (p (x + m) z ^^ p (x + n) (z + l))) (x z : Nat) :
    p x z = (p (x + 2 * m) z ^^ p (x + 2 * n) (z + 2 * l)) := by
  calc p x z
      = ((p (x + m + m) z ^^ p (x + m + n) (z + l)) ^^ (p (x + m + n) (z + l) ^^ p (x + n + n) (z + l + l))) := by
        rw [h x z, h (x + m) z, h (x + n) (z + l), Nat.add_right_comm x n m]
    _ = (p (x + m + m) z ^^ p (x + n + n) (z + l + l)) := by
        rw [Bool.xor_assoc, ← Bool.xor_assoc (p (x + m + n) _), Bool.xor_self, Bool.false_xor]
    _ = (p (x + 2 * m) z ^^ p (x + 2 * n) (z + 2 * l)) := by
        simp only [Nat.two_mul, Nat.add_assoc]

/-- On a ring of five bits, only the zero ring has each bit the sum of its two neighbours. -/
theorem five_bits_eq_false : ∀ a b c d e : Bool,
    a = (b ^^ e) → b = (c ^^ a) → c = (d ^^ b) → d = (e ^^ c) → e = (a ^^ d) → a = false := by decide

/-- Six doublings bring the distance in `z` to a multiple of 64: every slice is then a ring of five bits by itself. -/
theorem eq_false_of_neighbours {p : Nat → Nat → Bool}
    (hperiod : ∀ {x x' z z' : Nat}, x % 5 = x' % 5 → z % 64 = z' % 64 → p x z = p x' z')
    (h : ∀ x z, p x z = (p (x + 4) z ^^ p (x + 1) (z + 63))) (x z : Nat) : p x z = false := by
  have h64 := neighbours_doubled (neighbours_doubled (neighbours_doubled (neighbours_doubled
    (neighbours_doubled (neighbours_doubled h)))))
  have hslice (x x₁ x₄ : Nat) (h₁ : x₁ % 5 = (x + 1) % 5) (h₄ : x₄ % 5 = (x + 4) % 5) :
      p x z = (p x₁ z ^^ p x₄ z) := by
    rw [h64 x z]
    congr 1 <;> exact hperiod (by omega) (by omega)
  exact five_bits_eq_false _ _ _ _ _ (hslice x (x + 1) (x + 4) rfl rfl)
    (hslice (x + 1) (x + 2) x (by omega) (by omega)) (hslice (x + 2) (x + 3) (x + 1) (by omega) (by omega))
    (hslice (x + 3) (x + 4) (x + 2) (by omega) (by omega)) (hslice (x + 4) x (x + 3) (by omega) (by omega))

/-- The output's column parity: a column's correction enters it five times. -/
theorem column_thetaC_theta (a : Lanes) (x : Nat) :
    column (thetaC (theta a)) x =
      column (thetaC a) x ^^^ (column (thetaC a) (x + 4) ^^^ rotl (column (thetaC a) (x + 1)) 1) := by
  rw [column_thetaC, column_thetaC a x]
  simp only [lane_theta]
  generalize column (thetaC a) (x + 4) ^^^ rotl (column (thetaC a) (x + 1)) 1 = d
  ext z
  simp only [BitVec.getElem_xor]
  grind

theorem xor_differences : ∀ {a b c a' b' c' : Bool}, (a ^^ (b ^^ c)) = (a' ^^ (b' ^^ c')) →
    (a ^^ a') = ((b ^^ b') ^^ (c ^^ c')) := by decide

/-- Bit `z` of the difference of the column parities of `a` and `b`, `z` taken mod 64. -/
def parityDifference (a b : Lanes) (x z : Nat) : Bool :=
  (column (thetaC a) x).getLsbD (z % 64) ^^ (column (thetaC b) x).getLsbD (z % 64)

theorem getLsbD_rotl_one (v : Lane) (z : Nat) : (rotl v 1).getLsbD (z % 64) = v.getLsbD ((z + 63) % 64) := by
  rw [← getLsbD_rotl_add_mod v (n := 1) (by decide) (Nat.mod_lt (z + 63) (by decide))]
  congr 1
  omega

theorem column_thetaC_eq_of_theta_eq {a b : Lanes} (h : theta a = theta b) (x : Nat) :
    column (thetaC a) x = column (thetaC b) x := by
  refine BitVec.eq_of_getLsbD_eq fun z hz => ?_
  have hzero : parityDifference a b x z = false := by
    refine eq_false_of_neighbours ?_ (fun x z => ?_) x z
    · intro x x' z z' hx hz
      simp only [parityDifference, column, hx, hz]
    · have hbit := congrArg (fun c => (column (thetaC c) x).getLsbD (z % 64)) h
      simp only [column_thetaC_theta, BitVec.getLsbD_xor, getLsbD_rotl_one] at hbit
      simpa only [parityDifference, Nat.mod_mod] using xor_differences hbit
  simpa [parityDifference, Nat.mod_eq_of_lt hz] using hzero

theorem theta_injective : Function.Injective theta := by
  intro a b h
  refine lanes_ext fun x y => ?_
  have hlane := congrArg (lane · x y) h
  simp only [lane_theta, column_thetaC_eq_of_theta_eq h] at hlane
  exact (BitVec.xor_left_inj _).1 hlane

/-! ### The other step mappings are injective -/

theorem rotl_injective {n : Nat} (hn : n < 64) : Function.Injective (rotl · n) := by
  intro v w (h : rotl v n = rotl w n)
  refine BitVec.eq_of_getLsbD_eq fun z hz => ?_
  rw [← getLsbD_rotl_add_mod v hn hz, ← getLsbD_rotl_add_mod w hn hz, h]

theorem rho_injective : Function.Injective rho := by
  intro a b h
  refine Vector.ext fun i hi => ?_
  obtain ⟨-, hle⟩ := rhoTable_eq_generated ⟨i, hi⟩
  have hlane := congrArg (·[(⟨i, hi⟩ : Fin 25)]) h
  simp only [getElem_rho] at hlane
  exact rotl_injective (by omega) hlane

/-- Where pi moves the lane `A[x,y]` (R89). -/
theorem lane_pi_dest (a : Lanes) (x y : Nat) : lane (pi a) y (2 * x + 3 * y) = lane a x y := by
  rw [lane_pi]
  exact lane_congr a (by omega) rfl

theorem pi_injective : Function.Injective pi := by
  intro a b h
  refine lanes_ext fun x y => ?_
  rw [← lane_pi_dest a, ← lane_pi_dest b, h]

/-- A bit of a row of five, from the row that chi makes of it. -/
theorem rowBit_eq_of_chi : ∀ a₀ a₁ a₂ a₃ a₄ : Bool, a₀ =
    ((a₀ ^^ (!a₁ && a₂)) ^^ (!(a₁ ^^ (!a₂ && a₃)) &&
      ((a₂ ^^ (!a₃ && a₄)) ^^ (!(a₃ ^^ (!a₄ && a₀)) && (a₄ ^^ (!a₀ && a₁)))))) := by decide

/-- chi is undone from the five output lanes of the row. -/
theorem lane_eq_of_chi (a : Lanes) (x y : Nat) :
    lane a x y = lane (chi a) x y ^^^ (~~~ lane (chi a) (x + 1) y &&&
      (lane (chi a) (x + 2) y ^^^ (~~~ lane (chi a) (x + 3) y &&& lane (chi a) (x + 4) y))) := by
  refine BitVec.eq_of_getLsbD_eq fun z hz => ?_
  have h5 : lane a (x + 5) y = lane a x y := lane_congr a (by omega) rfl
  have h6 : lane a (x + 6) y = lane a (x + 1) y := lane_congr a (by omega) rfl
  simp only [BitVec.getLsbD_xor, BitVec.getLsbD_and, BitVec.getLsbD_not, getLsbD_lane_chi _ _ _ hz, hz, Nat.add_assoc,
    Nat.reduceAdd, h5, h6, decide_true, Bool.true_and]
  exact rowBit_eq_of_chi ..

theorem chi_injective : Function.Injective chi := by
  intro a b h
  refine lanes_ext fun x y => ?_
  rw [lane_eq_of_chi a, lane_eq_of_chi b, h]

theorem iota_injective (ir : Fin 24) : Function.Injective (iota · ir) := by
  intro a b (h : iota a ir = iota b ir)
  refine Vector.ext fun i hi => ?_
  obtain rfl | hne := eq_or_ne i 0
  · rw [← BitVec.xor_left_inj rcTable[ir], ← iota_zero, ← iota_zero, h]
  · rw [← iota_ne_zero a ir hi hne, ← iota_ne_zero b ir hi hne, h]

/-! ### The permutation -/

theorem keccakRound_injective (ir : Fin 24) : Function.Injective (keccakRound · ir) :=
  (iota_injective ir).comp (chi_injective.comp (pi_injective.comp (rho_injective.comp theta_injective)))

theorem foldl_injective {α β : Type} {f : β → α → β} (hf : ∀ x, Function.Injective (f · x)) (l : List α) :
    Function.Injective (l.foldl f) := by
  induction l with
  | nil => exact Function.injective_id
  | cons x l ih => exact ih.comp (hf x)

theorem keccakF_injective : Function.Injective keccakF := by
  intro a b h
  rw [keccakF, keccakF] at h
  exact foldl_injective keccakRound_injective _ h

theorem finite_lanes : Finite Lanes :=
  Finite.of_injective (fun (a : Lanes) (i : Fin 25) => a[i].toFin) fun _ _ h =>
    Vector.ext fun i hi => BitVec.eq_of_toFin_eq (congrFun h ⟨i, hi⟩)

/-- Settles O15: an injective map of a finite set into itself is a bijection. -/
theorem keccakFIsABijection : Obligations.KeccakFIsABijection :=
  haveI := finite_lanes
  Finite.injective_iff_bijective.1 keccakF_injective

/-- The permutation of the zero state (R94), run once for both lanes. -/
theorem keccakF_zero : (fun a : Lanes => (a[0], a[24])) (keccakF (Vector.replicate 25 0)) =
    (0xF1258F7940E1DDE7, 0xEAF1FF7B5CECA249) := by decide +kernel

/-- Settles O13: both lanes are read from the one run. -/
theorem keccakOfTheZeroState : Obligations.KeccakOfTheZeroState :=
  Prod.mk.inj keccakF_zero

end Sys2Proof.Machine
end

section
/-! What each command does in a possible state, one equation per outcome of the checks of R110 (R113 to R118, R120,
R127, R155), and the statements about INIT, about failing commands and about commands out of phase. -/
namespace Sys2Proof.Machine

section Outcomes

variable {s : State} {hp bp : Bool} {bitsize length : Nat}

/-! ### The phase check outside READY -/

theorem whenReady_of_guarded (hr : s.phase ≠ phaseReady) (hg : s.config.seqGuard = true) (body : State → Result) :
    whenReady s body = .next (s.failed .sequenceError) := by
  rw [whenReady, if_neg hr, if_pos hg, raiseError]

theorem whenReady_of_unguarded (hr : s.phase ≠ phaseReady) (hg : s.config.seqGuard = false)
    (body : State → Result) : whenReady s body = .fault (.contractViolation s.recordFault) := by
  rw [whenReady, if_neg hr, if_neg (by simp [hg])]

/-! ### INIT -/

theorem exec_init_of_supported (hpos : Possible s) (hl : s.payload = []) (hb : supportedBitsize bitsize = true) :
    exec (.init true bitsize) s = .next (initBody bitsize s).completed := by
  rw [exec, execInit, transact_of_possible (by rw [hl]; rfl) hpos, if_neg (by decide), if_neg (by simp [hb]), succeed]

theorem exec_init_of_invalid (hpos : Possible s) (hl : s.payload = [])
    (h : hp = false ∨ supportedBitsize bitsize = false) :
    exec (.init hp bitsize) s = .next (s.failed .invalidArgument) := by
  rw [exec, execInit, transact_of_possible (by rw [hl]; rfl) hpos, raiseError]
  rcases h with h | h <;> simp [h]

/-! ### UPDATE -/

theorem exec_update_of_valid (hpos : Possible s) (hb : bp = true ∨ length = 0) (hl : s.payload.length = length) :
    exec (.update true bp length) s = whenReady s fun t => succeed (t.absorbBytes t.payload) := by
  have hann : s.payload.length = (Instr.update true bp length).announced := by
    rcases hb with rfl | rfl <;> simp [Instr.announced, hl]
  have hbuf : ¬(bp = false ∧ 0 < length) := by
    rcases hb with rfl | rfl <;> simp
  rw [exec, execUpdate, transact_of_possible hann hpos, if_neg (by decide), if_neg hbuf]

theorem exec_update_of_ready (hpos : Possible s) (hr : s.phase = phaseReady) (hs : s.spongeOk = true)
    (hb : bp = true ∨ length = 0) (hl : s.payload.length = length) :
    exec (.update true bp length) s = .next (s.absorbBytes s.payload).completed := by
  rw [exec_update_of_valid hpos hb hl, whenReady_of_ready hr hs, succeed]

theorem exec_update_of_invalid (hpos : Possible s) (hl : s.payload.length = if bp = true then length else 0)
    (h : hp = false ∨ (bp = false ∧ 0 < length)) :
    exec (.update hp bp length) s = .next (s.failed .invalidArgument) := by
  have hann : s.payload.length = (Instr.update hp bp length).announced := hl
  rw [exec, execUpdate, transact_of_possible hann hpos, raiseError]
  rcases h with h | h <;> simp [h]

/-! ### FINALIZE -/

theorem exec_finalize_of_valid (hpos : Possible s) (hl : s.payload = []) :
    exec (.finalize true true) s = whenReady s fun t => succeed (finalizeBody t) := by
  rw [exec, execFinalize, transact_of_possible (by rw [hl]; rfl) hpos, if_neg (by decide), if_neg (by decide)]

theorem exec_finalize_of_ready (hpos : Possible s) (hr : s.phase = phaseReady) (hs : s.spongeOk = true)
    (hl : s.payload = []) : exec (.finalize true true) s = .next (finalizeBody s).completed := by
  rw [exec_finalize_of_valid hpos hl, whenReady_of_ready hr hs, succeed]

theorem exec_finalize_of_invalid (hpos : Possible s) (hl : s.payload = []) (h : hp = false ∨ bp = false) :
    exec (.finalize hp bp) s = .next (s.failed .invalidArgument) := by
  rw [exec, execFinalize, transact_of_possible (by rw [hl]; rfl) hpos, raiseError]
  rcases h with h | h <;> simp [h]

/-! ### The end of a transaction that brought no payload -/

theorem failed_of_no_payload (hl : s.payload = []) (code : ErrCode) :
    s.failed code = { s with statusOk := false, statusErr := code.code } := by
  rw [State.failed, ← hl]

theorem completed_of_no_payload (hl : s.payload = []) :
    s.completed = { s with statusOk := true, statusErr := 0 } := by
  rw [State.completed, ← hl, errNone]

end Outcomes

/-! ### The four variants (R112) -/

theorem supportedBitsize_iff {bitsize : Nat} :
    supportedBitsize bitsize = true ↔ bitsize = 224 ∨ bitsize = 256 ∨ bitsize = 384 ∨ bitsize = 512 := by
  simp only [supportedBitsize, Bool.or_eq_true, beq_iff_eq, or_assoc]

/-- Settles O29: a supported bitsize is one of the four, and each row of R112's table is computed. -/
theorem rateAndDigestLengthOfEachVariant : Obligations.RateAndDigestLengthOfEachVariant := by
  refine ⟨by decide, fun bitsize hb => ?_⟩
  rcases supportedBitsize_iff.1 hb with rfl | rfl | rfl | rfl <;> decide

/-- Settles O28: INIT's body and its end write these fields and no other. -/
theorem initSetsUpTheVariant : Obligations.InitSetsUpTheVariant := by
  intro s bitsize hpos hl hb
  rw [exec_init_of_supported hpos hl (supportedBitsize_iff.2 hb), completed_of_no_payload (s := initBody bitsize s) hl]
  rfl

/-! ### Failing commands -/

/-- Settles O30: any other bitsize is not supported, and the failure consumes no payload. -/
theorem failingInitChangesStatusOnly : Obligations.FailingInitChangesStatusOnly := by
  intro s hp bitsize hpos hl h
  have hinvalid : hp = false ∨ supportedBitsize bitsize = false := by
    refine h.imp_right fun hb => Bool.eq_false_iff.2 fun hsup => ?_
    have := supportedBitsize_iff.1 hsup
    omega
  rw [exec_init_of_invalid hpos hl hinvalid, failed_of_no_payload hl]
  rfl

/-- Settles O36: the argument checks come before the phase check, in every phase. -/
theorem updateWithoutHandleOrBufferFails : Obligations.UpdateWithoutHandleOrBufferFails :=
  fun _ _ _ _ hpos hl h => exec_update_of_invalid hpos hl h

/-- Settles O41: the argument checks come before padding and absorption. -/
theorem failingFinalizeEmitsNothing : Obligations.FailingFinalizeEmitsNothing := by
  intro s hp bp hpos hl h
  rw [exec_finalize_of_invalid hpos hl h, failed_of_no_payload hl]
  rfl

/-- Settles O42: with valid arguments each command comes to the phase check, which fails it. -/
theorem outOfPhaseCommandIsASequenceError : Obligations.OutOfPhaseCommandIsASequenceError := by
  intro s hpos hr hg
  constructor
  · intro hl
    rw [exec_finalize_of_valid hpos hl, whenReady_of_guarded hr hg, failed_of_no_payload hl]
    rfl
  · intro bp length hb hl
    rw [exec_update_of_valid hpos hb hl, whenReady_of_guarded hr hg]
    rfl

/-- Settles O35: the phase check has three outcomes, and in READY the loop has no byte to take. -/
theorem zeroLengthUpdateIsANoOpSuccess : Obligations.ZeroLengthUpdateIsANoOpSuccess := by
  intro s bp hpos hl
  have hlen : s.payload.length = 0 := List.length_eq_zero_iff.2 hl
  refine ⟨fun hr hs => ?_, fun hr hg => ?_, fun hr hg => ?_⟩
  · rw [exec_update_of_ready hpos hr hs (.inr rfl) hlen, ← completed_of_no_payload hl, hl, absorbBytes_nil]
  · rw [exec_update_of_valid hpos (.inr rfl) hlen, whenReady_of_guarded hr hg, failed_of_no_payload hl]
    rfl
  · rw [exec_update_of_valid hpos (.inr rfl) hlen, whenReady_of_unguarded hr hg]
    rfl

end Sys2Proof.Machine
end

section
/-! UPDATE's loop up to the first flush (R115): the bytes that only go into the buffer, the flush at the byte that
fills it, and the statements about UPDATE in READY. -/
namespace Sys2Proof.Machine

/-! ### One byte -/

section OneByte

variable {s : State}

theorem absorbByte_of_full (h : s.bufferOffset + 1 = s.rateBytes) (b : Byte) :
    s.absorbByte b = (s.storeByte b).absorbBlock := if_pos h

theorem absorbByte_of_not_full (h : s.bufferOffset + 1 ≠ s.rateBytes) (b : Byte) :
    s.absorbByte b = s.storeByte b := if_neg h

theorem storeByte_offset_toNat (h : s.bufferOffset.toNat < 255) (b : Byte) :
    (s.storeByte b).bufferOffset.toNat = s.bufferOffset.toNat + 1 :=
  BitVec.toNat_add_of_lt (Nat.succ_lt_succ h)

/-- Below the rate the offset does not wrap, so the registers compare as their numbers do (R23). -/
theorem offset_succ_eq_rate_iff (h : s.bufferOffset.toNat < s.rateBytes.toNat) :
    s.bufferOffset + 1 = s.rateBytes ↔ s.bufferOffset.toNat + 1 = s.rateBytes.toNat := by
  have hrate := s.rateBytes.isLt
  have hn : (s.bufferOffset + 1).toNat = s.bufferOffset.toNat + 1 := storeByte_offset_toNat (by omega) 0
  rw [← BitVec.toNat_inj, hn]

end OneByte

/-! ### The payload under execution, which the loop does not read -/

/-- The state with another payload in transit. -/
def State.withPayload (p : List Byte) (s : State) : State := { s with payload := p }

theorem completed_withPayload (p : List Byte) (s : State) : (s.withPayload p).completed = s.completed := rfl

theorem absorbByte_withPayload (p : List Byte) (s : State) (b : Byte) :
    (s.withPayload p).absorbByte b = (s.absorbByte b).withPayload p := by
  by_cases h : s.bufferOffset + 1 = s.rateBytes
  · rw [absorbByte_of_full h, absorbByte_of_full (s := s.withPayload p) h]
    rfl
  · rw [absorbByte_of_not_full h, absorbByte_of_not_full (s := s.withPayload p) h]
    rfl

theorem absorbBytes_withPayload (p : List Byte) (s : State) (data : List Byte) :
    (s.withPayload p).absorbBytes data = (s.absorbBytes data).withPayload p := by
  induction data generalizing s with
  | nil => rfl
  | cons b data ih => rw [absorbBytes_cons, absorbByte_withPayload, ih, absorbBytes_cons]

/-- An UPDATE of several bytes is the UPDATE of the later ones on the state that the first byte leaves. -/
theorem exec_update_cons {s : State} {b : Byte} {later : List Byte} (hpos : Possible s) (hr : s.phase = phaseReady)
    (hs : s.spongeOk = true) (hl : s.payload = b :: later) :
    exec (.update true true (later.length + 1)) s =
      exec (.update true true later.length) ((s.absorbByte b).withPayload later) := by
  have hpos' : Possible ((s.absorbByte b).withPayload later) :=
    hpos.congr (absorbByte_faultMark s b) (absorbByte_phase s b) (absorbByte_statusErr s b)
  have hr' : ((s.absorbByte b).withPayload later).phase = phaseReady := (absorbByte_phase s b).trans hr
  have hs' : ((s.absorbByte b).withPayload later).spongeOk = true := spongeOk_absorbByte hs b
  calc exec (.update true true (later.length + 1)) s
      = .next (s.absorbBytes s.payload).completed := exec_update_of_ready hpos hr hs (.inl rfl) (by rw [hl]; rfl)
    _ = .next (((s.absorbByte b).withPayload later).absorbBytes later).completed := by
        rw [hl, absorbBytes_cons, absorbBytes_withPayload, completed_withPayload]
    _ = exec (.update true true later.length) ((s.absorbByte b).withPayload later) :=
        (exec_update_of_ready hpos' hr' hs' (.inl rfl) rfl).symm

/-- Settles O32: the state after the first byte is written out, with and without the flush. -/
theorem updateTakesItsBytesOneAtATime : Obligations.UpdateTakesItsBytesOneAtATime := by
  intro s b later hpos hr hs hl
  have hfull := offset_succ_eq_rate_iff (spongeOk_iff.1 hs).2
  rw [exec_update_cons hpos hr hs hl]
  split
  · next h => rw [absorbByte_of_full (hfull.2 h)]; rfl
  · next h => rw [absorbByte_of_not_full (mt hfull.1 h)]; rfl

/-! ### Bytes that only go into the buffer -/

/-- The bytes stored one after the other from the offset on, with no flush. -/
def State.storeBytes (s : State) (data : List Byte) : State := data.foldl (fun t b => t.storeByte b) s

@[simp] theorem storeBytes_nil (s : State) : s.storeBytes [] = s := rfl

@[simp] theorem storeBytes_cons (s : State) (b : Byte) (data : List Byte) :
    s.storeBytes (b :: data) = (s.storeByte b).storeBytes data := rfl

/-- Storing writes the buffer and the offset alone. -/
theorem storeBytes_eq (s : State) (data : List Byte) :
    s.storeBytes data = { s with
      blockBuffer := (s.storeBytes data).blockBuffer
      bufferOffset := s.bufferOffset + BitVec.ofNat 8 data.length } := by
  induction data generalizing s with
  | nil => simp
  | cons b data ih =>
    have hoff : s.bufferOffset + 1 + BitVec.ofNat 8 data.length =
        s.bufferOffset + BitVec.ofNat 8 (data.length + 1) := by
      rw [BitVec.add_assoc, Nat.add_comm, BitVec.ofNat_add]
      rfl
    rw [storeBytes_cons, ih, storeByte_bufferOffset, hoff]
    rfl

@[simp] theorem storeBytes_lanes (s : State) (data : List Byte) : (s.storeBytes data).lanes = s.lanes := by
  rw [storeBytes_eq]

@[simp] theorem storeBytes_rateBytes (s : State) (data : List Byte) :
    (s.storeBytes data).rateBytes = s.rateBytes := by
  rw [storeBytes_eq]

/-- Every byte of the buffer after storing inside it (R22, R115). -/
theorem read_storeBytes {s : State} {data : List Byte} (hw : s.blockBuffer.wf = true)
    (hfit : s.bufferOffset.toNat + data.length ≤ Config.bufferSize) (a : Nat) :
    (s.storeBytes data).blockBuffer.read a =
      if s.bufferOffset.toNat ≤ a ∧ a < s.bufferOffset.toNat + data.length then
        data.getD (a - s.bufferOffset.toNat) 0
      else s.blockBuffer.read a := by
  induction data generalizing s with
  | nil => rw [storeBytes_nil, if_neg (by simp)]
  | cons b data ih =>
    rw [List.length_cons] at hfit ⊢
    have hsize : Config.bufferSize = 144 := rfl
    have hoff := storeByte_offset_toNat (s := s) (by omega) b
    rw [storeBytes_cons, ih (Memory.wf_write hw _ _) (by omega), hoff, storeByte_blockBuffer,
      Memory.read_write hw (by omega)]
    rcases Nat.lt_trichotomy a s.bufferOffset.toNat with hlt | heq | hgt
    · rw [if_neg (by omega), if_neg (by omega), if_neg (by omega)]
    · rw [if_neg (by omega), if_pos heq, if_pos (by omega), heq, Nat.sub_self]
      rfl
    · have hsucc : a - s.bufferOffset.toNat = a - (s.bufferOffset.toNat + 1) + 1 := by omega
      rw [if_neg (by omega : a ≠ s.bufferOffset.toNat), hsucc, List.getD_cons_succ]
      congr 1
      exact propext (by omega)

/-! ### The loop up to the first flush -/

/-- A payload that does not fill the buffer is stored. -/
theorem absorbBytes_of_lt {s : State} {data : List Byte} (h : s.bufferOffset.toNat + data.length < s.rateBytes.toNat) :
    s.absorbBytes data = s.storeBytes data := by
  induction data generalizing s with
  | nil => rfl
  | cons b data ih =>
    rw [List.length_cons] at h
    have hrate := s.rateBytes.isLt
    have hnot := mt (offset_succ_eq_rate_iff (s := s) (by omega)).1 (by omega)
    have hoff := storeByte_offset_toNat (s := s) (by omega) b
    rw [absorbBytes_cons, absorbByte_of_not_full hnot, storeBytes_cons,
      ih (by rw [hoff, storeByte_rateBytes]; omega)]

/-- A payload whose last byte fills the buffer is stored, and then the buffer is flushed. -/
theorem absorbBytes_of_fills {s : State} {data : List Byte} (hlt : s.bufferOffset.toNat < s.rateBytes.toNat)
    (h : s.bufferOffset.toNat + data.length = s.rateBytes.toNat) :
    s.absorbBytes data = (s.storeBytes data).absorbBlock := by
  induction data generalizing s with
  | nil => exact absurd h (Nat.ne_of_lt hlt)
  | cons b data ih =>
    rw [List.length_cons] at h
    have hrate := s.rateBytes.isLt
    have hfull := offset_succ_eq_rate_iff hlt
    cases data with
    | nil => exact absorbByte_of_full (hfull.2 h) b
    | cons c data =>
      rw [List.length_cons] at h
      have hnot := mt hfull.1 (by omega)
      have hoff := storeByte_offset_toNat (s := s) (by omega) b
      rw [absorbBytes_cons, absorbByte_of_not_full hnot, storeBytes_cons,
        ih (by rw [hoff, storeByte_rateBytes]; omega) (by rw [hoff, storeByte_rateBytes, List.length_cons]; omega)]

theorem getElem_xorBlock (lanes : Lanes) (buf : Memory) (rate : Nat) (j : Fin 25) :
    (xorBlock lanes buf rate)[j] = if j.val < rate / 8 then lanes[j] ^^^ buf.laneAt j.val else lanes[j] := by
  simp [xorBlock]

/-- Settles O33: the loop stores the payload, and storing writes the buffer and the offset alone. -/
theorem updateStoresBelowTheRate : Obligations.UpdateStoresBelowTheRate := by
  rintro s _ hpos hr hs hw rfl hlt
  obtain ⟨-, hsize, -⟩ := legalRate_bounds (spongeOk_iff.1 hs).1
  refine ⟨_, exec_update_of_ready hpos hr hs (.inl rfl) rfl, ?_⟩
  rw [absorbBytes_of_lt hlt]
  exact ⟨read_storeBytes hw (by omega), congrArg State.completed (storeBytes_eq s s.payload)⟩

/-- Settles O34: the loop stores the payload and flushes, and the flush leaves the buffer as it was filled. -/
theorem updateFlushesAFullBuffer : Obligations.UpdateFlushesAFullBuffer := by
  rintro s _ hpos hr hs hw rfl hfull
  obtain ⟨hlegal, hlt⟩ := spongeOk_iff.1 hs
  obtain ⟨-, hsize, -⟩ := legalRate_bounds hlegal
  have hread := read_storeBytes hw (data := s.payload) (by omega)
  rw [hfull] at hread
  refine ⟨_, exec_update_of_ready hpos hr hs (.inl rfl) rfl, ?_⟩
  rw [absorbBytes_of_fills hlt hfull]
  refine ⟨hread, ⟨_, ?_, getElem_xorBlock s.lanes _ _⟩, ?_⟩
  · rw [completed_lanes, absorbBlock_lanes, storeBytes_lanes, storeBytes_rateBytes]
    rfl
  · rw [storeBytes_eq]
    rfl

end Sys2Proof.Machine
end

section
/-! Padding and FINALIZE in READY (R120 to R125). -/
namespace Sys2Proof.Machine

/-- Settles O39: from `rate - 1` on the padding has one byte, which takes both pad values. -/
theorem paddingCollisionIsEightySix : Obligations.PaddingCollisionIsEightySix := by
  intro m rate hw hrate
  obtain ⟨hpos, hsize, -⟩ := legalRate_bounds hrate
  have hread := read_padBlock hw (off := rate - 1) (by omega) hsize
  constructor
  · rw [hread, if_pos (by omega), if_pos rfl, if_pos rfl, domain_or_last]
  · intro a ha
    rw [hread, if_neg (by omega)]

/-- FINALIZE's body in READY, field by field: the padded block is absorbed, its digest emitted, the HashState zeroed. -/
theorem finalizeBody_completed_eq {s : State} (hl : s.payload = []) :
    (finalizeBody s).completed = { s with
      lanes := Vector.replicate 25 0, rateBytes := 0, blockBuffer := [], bufferOffset := 0, phase := phaseDone
      statusOk := true, statusErr := errNone
      digestOut := s.digestOut ++ laneBytes
        (keccakF (xorBlock s.lanes (padBlock s.blockBuffer s.bufferOffset.toNat s.rateBytes.toNat) s.rateBytes.toNat))
        (digestBytes s.rateBytes.toNat)
      engine := Config.freeEngine s.freeCount, freeCount := s.freeCount + 1 } := by
  rw [completed_of_no_payload (s := finalizeBody s) hl]
  rfl

/-- Settles O38: the padded block below the rate is the message and its padding, and it alone is absorbed. -/
theorem finalizeEmitsTheDigestAndScrubs : Obligations.FinalizeEmitsTheDigestAndScrubs := by
  intro s hpos hr hs hw hl
  obtain ⟨hlegal, hlt⟩ := spongeOk_iff.1 hs
  obtain ⟨-, hsize, -⟩ := legalRate_bounds hlegal
  refine ⟨_, _, padBlock s.blockBuffer s.bufferOffset.toNat s.rateBytes.toNat, exec_finalize_of_ready hpos hr hs hl,
    fun a ha => ?_, getElem_xorBlock s.lanes _ _, ?_⟩
  · rw [read_padBlock hw hlt hsize]
    by_cases hmsg : a < s.bufferOffset.toNat
    · rw [if_neg (by omega), if_pos hmsg]
    · rw [if_pos (by omega), if_neg hmsg]
      rfl
  · rw [finalizeBody_completed_eq hl]
    rfl

end Sys2Proof.Machine
end

section
/-! How a transaction ends otherwise than by success (R118, R153, R155), and the idle block (R165). -/
namespace Sys2Proof.Machine

/-- A failing command writes one of the three codes of R151. -/
theorem ErrCode.code_cases (code : ErrCode) : code.code = 1 ∨ code.code = 2 ∨ code.code = 3 := by
  cases code with
  | invalidArgument => exact .inl rfl
  | sequenceError => exact .inr (.inl rfl)
  | illegalCommand => exact .inr (.inr rfl)

/-- A command that ends with OK = 0 has ended by `raise Error`: each of the three bodies ends with OK = 1 (R152). -/
theorem exec_failed {i : Instr} {s t : State} (h : exec i s = .next t) (hok : t.statusOk = false) :
    ∃ code, t = s.failed code := by
  obtain ⟨-, -, hfailed | ⟨bitsize, -, -, rfl⟩ | ⟨bp, length, -, -, -, -, rfl⟩ | ⟨-, -, -, rfl⟩⟩ := exec_next h
  · exact hfailed
  · cases hok
  · cases hok
  · cases hok

/-- The same of a transaction, whether its word is a command or not. -/
theorem step_transaction_failed {s t : State} {w : Word} {p : List Byte} {rest : List HostMove}
    (hc : s.channel = .transaction w p :: rest) (h : step s = .next t) (hok : t.statusOk = false) :
    ∃ code, t = (s.accept p rest).failed code := by
  cases hd : decode w with
  | ok i => exact exec_failed (step_command hc hd ▸ h) hok
  | error e =>
    obtain ⟨-, -, ht⟩ := execIllegal_next (step_illegal hc hd ▸ h)
    exact ⟨.illegalCommand, ht⟩

/-- Settles O47: the failed state is the accepted one with STATUS and the payload written. -/
theorem failureCommitsNoPartialProgress : Obligations.FailureCommitsNoPartialProgress := by
  intro s t w p rest hc h hok
  obtain ⟨code, rfl⟩ := step_transaction_failed hc h hok
  exact ⟨ErrCode.code_cases code, rfl⟩

/-- Settles O43: with valid arguments each command comes to the phase check, which is the fault without the guard. -/
theorem unguardedOutOfPhaseCommandFaults : Obligations.UnguardedOutOfPhaseCommandFaults := by
  intro s hpos hr hg
  constructor
  · intro hl
    rw [exec_finalize_of_valid hpos hl, whenReady_of_unguarded hr hg]
    rfl
  · intro bp length hb hl
    rw [exec_update_of_valid hpos hb hl, whenReady_of_unguarded hr hg]
    rfl

/-- Settles O24: an empty channel is the idle move. -/
theorem idleBlockHoldsItsState : Obligations.IdleBlockHoldsItsState :=
  fun _ hc => step_idle hc

end Sys2Proof.Machine
end

section
/-! The reset input (R170, R171), transactions after a fault (R34, R179), and the length of a run's observation (R179). -/
namespace Sys2Proof.Machine

/-- Settles O20: the step of either form is `assertReset`, with the move taken off the channel. -/
theorem resetInputClearsTheBlock : Obligations.ResetInputClearsTheBlock :=
  fun _ _ hc => ⟨_, step_reset hc, rfl⟩

/-- Settles O52: a transaction that completes has passed the check for a possible state, which has no mark. -/
theorem noTransactionCompletesAfterAFault : Obligations.NoTransactionCompletesAfterAFault := by
  intro s t w p rest hm hc h
  obtain ⟨run, hstep⟩ := step_transaction hc
  obtain ⟨-, hpos, -⟩ := transact_next (hstep ▸ h)
  have hunmarked : s.faultMark = false := hpos.unmarked
  exact Bool.false_ne_true (hunmarked.symm.trans hm)

/-! ### What a step takes from the command channel -/

/-- A command takes nothing more from the channel than the transaction it was accepted from. -/
theorem exec_channel {i : Instr} {s t : State} (h : exec i s = .next t) : t.channel = s.channel := by
  obtain ⟨-, -, ⟨code, rfl⟩ | ⟨bitsize, -, -, rfl⟩ | ⟨bp, length, -, -, -, -, rfl⟩ | ⟨-, -, -, rfl⟩⟩ := exec_next h
  · rfl
  · rfl
  · simp
  · rfl

/-- A completing step takes the first move of the channel, where there is one (R178). -/
theorem step_channel {s t : State} (h : step s = .next t) : t.channel = s.channel.tail := by
  rcases step_next h with ⟨hc, rfl⟩ | ⟨w, p, rest, hc, ⟨i, -, he⟩ | ⟨e, -, he⟩⟩ | ⟨rest, hc, rfl⟩ |
    ⟨rest, hc, -, rfl⟩ | ⟨n, rest, hc, -, rfl⟩
  · simp [hc]
  · simp [hc, exec_channel he]
  · obtain ⟨-, -, rfl⟩ := execIllegal_next he
    simp [hc]
  · rcases hc with hc | ⟨w, p, hc⟩ <;> simp [hc]
  · simp [hc]
  · simp [hc]

/-! ### The transactions among the next moves -/

def HostMove.isTransaction : HostMove → Bool
  | .transaction _ _ => true
  | _ => false

/-- How many of the first `k` pending moves are transactions. -/
def State.transactionsAhead (k : Nat) (s : State) : Nat := (s.channel.take k).countP HostMove.isTransaction

theorem transactionNext_eq (s : State) : s.transactionNext = s.channel.head?.any HostMove.isTransaction := by
  rw [State.transactionNext]
  cases s.channel with
  | nil => rfl
  | cons move rest => cases move <;> rfl

/-- The first move counts if it is a transaction, and the others are pending after the step. -/
theorem transactionsAhead_succ {k : Nat} {s t : State} (h : step s = .next t) :
    s.transactionsAhead (k + 1) = t.transactionsAhead k + if s.transactionNext then 1 else 0 := by
  rw [State.transactionsAhead, State.transactionsAhead, step_channel h, transactionNext_eq]
  cases s.channel with
  | nil => simp
  | cons move rest =>
    rw [List.take_succ_cons, List.countP_cons]
    rfl

/-! ### One observation per transaction -/

/-- A run that completes has a first step, and its observation is that of the later steps, with the first step's own
before it where that step was a transaction. -/
theorem observe_succ_eq_some {k : Nat} {s u : State} {seen : List Observation}
    (h : observe (k + 1) s = some (u, seen)) :
    ∃ t later, step s = .next t ∧ observe k t = some (u, later) ∧
      seen = if s.transactionNext then observation s t :: later else later := by
  rw [observe] at h
  split at h
  · next t hs =>
    split at h
    · next v later hk =>
      cases h
      exact ⟨t, later, hs, hk, rfl⟩
    · cases h
  · cases h

theorem observe_length {k : Nat} {s u : State} {seen : List Observation} (h : observe k s = some (u, seen)) :
    seen.length = s.transactionsAhead k := by
  induction k generalizing s seen with
  | zero =>
    cases h
    simp [State.transactionsAhead]
  | succ k ih =>
    obtain ⟨t, later, hs, hk, rfl⟩ := observe_succ_eq_some h
    rw [transactionsAhead_succ hs, ← ih hk]
    split <;> rfl

/-- Settles O56: the moves that the statement counts are those of `transactionsAhead`. -/
theorem oneObservationPerTransaction : Obligations.OneObservationPerTransaction := by
  intro k s u seen h
  rw [observe_length h, State.transactionsAhead, List.countP_eq_length_filter]
  rfl

end Sys2Proof.Machine
end

section
/-! The invariant of the block (R21 to R28, R151): each way a step can end leaves it, and a guarded block in a state that
meets it completes every move (R150, R176). -/
namespace Sys2Proof.Machine

/-! ### Each way a step can end leaves the invariant -/

section Invariant

variable {s : State}

theorem legalRate_rateOf {bitsize : Nat} (h : supportedBitsize bitsize = true) : legalRate (rateOf bitsize) = true := by
  obtain ⟨-, -, hlegal, -⟩ := rateAndDigestLengthOfEachVariant.2 bitsize h
  exact hlegal

/-- INIT leaves an empty buffer under the rate of its variant (R113). -/
theorem spongeOk_initBody {bitsize : Nat} (h : supportedBitsize bitsize = true) (s : State) :
    (initBody bitsize s).spongeOk = true := by
  rw [spongeOk_iff, initBody_rateBytes_toNat h]
  exact ⟨legalRate_rateOf h, Nat.pos_of_ne_zero (rateOf_ne_zero h)⟩

theorem phaseUninit_ne_ready : phaseUninit ≠ phaseReady := by decide
theorem phaseDone_ne_ready : phaseDone ≠ phaseReady := by decide
theorem phaseUninit_ne_reserved : phaseUninit ≠ phaseReserved := by decide
theorem phaseReady_ne_reserved : phaseReady ≠ phaseReserved := by decide
theorem phaseDone_ne_reserved : phaseDone ≠ phaseReserved := by decide
theorem phaseReady_ne_uninit : phaseReady ≠ phaseUninit := by decide
theorem phaseDone_ne_uninit : phaseDone ≠ phaseUninit := by decide

/-- A successful INIT leaves the invariant whatever it started from. -/
theorem blockInv_initBody {bitsize : Nat} (h : supportedBitsize bitsize = true) (s : State) :
    BlockInv (initBody bitsize s).completed where
  bufferWf := rfl
  phaseLegal := phaseReady_ne_reserved
  errLegal := rfl
  okNoError := fun _ => rfl
  okPhase := fun _ => phaseReady_ne_uninit
  readySponge := fun _ => spongeOk_initBody h s
  readyTail := fun _ a _ => Memory.read_nil a
  idleZero := fun hne => absurd rfl hne
  payloadConsumed := rfl

/-- The states with a zero HashState that meet the invariant: UNINIT with OK = 0, and DONE. -/
theorem blockInv_of_hashStateZero (hz : HashStateZero s)
    (hphase : (s.phase = phaseUninit ∧ s.statusOk = false) ∨ s.phase = phaseDone) (herr : s.statusErr = errNone)
    (hl : s.payload = []) : BlockInv s := by
  have ⟨_, _, hbuf, _⟩ := hz
  have hlegal : s.phase ≠ phaseReserved := by
    rcases hphase with ⟨hp, -⟩ | hp
    · exact hp ▸ phaseUninit_ne_reserved
    · exact hp ▸ phaseDone_ne_reserved
  have hidle : s.phase ≠ phaseReady := by
    rcases hphase with ⟨hp, -⟩ | hp
    · exact hp ▸ phaseUninit_ne_ready
    · exact hp ▸ phaseDone_ne_ready
  have hok : s.statusOk = true → s.phase ≠ phaseUninit := by
    rcases hphase with ⟨-, hfail⟩ | hp
    · exact fun h => absurd (hfail.symm.trans h) Bool.false_ne_true
    · exact fun _ => hp ▸ phaseDone_ne_uninit
  exact {
    bufferWf := by rw [hbuf, Memory.wf_nil]
    phaseLegal := hlegal
    errLegal := herr ▸ rfl
    okNoError := fun _ => herr
    okPhase := hok
    readySponge := fun hr => absurd hr hidle
    readyTail := fun hr => absurd hr hidle
    idleZero := fun _ => hz
    payloadConsumed := hl }

theorem hashStateZero_finalizeBody (s : State) : HashStateZero (finalizeBody s).completed := ⟨rfl, rfl, rfl, rfl⟩

theorem blockInv_finalizeBody (s : State) : BlockInv (finalizeBody s).completed :=
  blockInv_of_hashStateZero (hashStateZero_finalizeBody s) (.inr rfl) rfl rfl

theorem blockInv_assertReset (s : State) : BlockInv s.assertReset :=
  blockInv_of_hashStateZero ⟨rfl, rfl, rfl, rfl⟩ (.inl ⟨rfl, rfl⟩) rfl rfl

/-- A failing transaction writes STATUS and consumes its payload (R153). -/
theorem BlockInv.failed (h : BlockInv s) (p : List Byte) (rest : List HostMove) (code : ErrCode) :
    BlockInv ((s.accept p rest).failed code) where
  bufferWf := h.bufferWf
  phaseLegal := h.phaseLegal
  errLegal := by cases code <;> rfl
  okNoError := nofun
  okPhase := nofun
  readySponge := h.readySponge
  readyTail := h.readyTail
  idleZero := h.idleZero
  payloadConsumed := rfl

/-- UPDATE's loop keeps the rate and the bytes above it (R22, R115). -/
theorem BlockInv.absorbed (h : BlockInv s) (hr : s.phase = phaseReady) (p : List Byte) (rest : List HostMove) :
    BlockInv ((s.accept p rest).absorbBytes p).completed := by
  have hphase : ((s.accept p rest).absorbBytes p).phase = phaseReady := by simpa using hr
  have hsponge : (s.accept p rest).spongeOk = true := h.readySponge hr
  have hwf : (s.accept p rest).blockBuffer.wf = true := h.bufferWf
  exact {
    bufferWf := absorbBytes_bufferWf hwf p
    phaseLegal := hphase ▸ phaseReady_ne_reserved
    errLegal := rfl
    okNoError := fun _ => rfl
    okPhase := fun _ => hphase ▸ phaseReady_ne_uninit
    readySponge := fun _ => spongeOk_absorbBytes hsponge p
    readyTail := fun _ a ha => by
      have habove : s.rateBytes.toNat ≤ a := by simpa using ha
      exact (absorbBytes_read_above hwf hsponge p habove).trans (h.readyTail hr a habove)
    idleZero := fun hne => absurd hphase hne
    payloadConsumed := rfl }

theorem BlockInv.moveTaken (h : BlockInv s) (rest : List HostMove) : BlockInv (s.moveTaken rest) :=
  ⟨h.bufferWf, h.phaseLegal, h.errLegal, h.okNoError, h.okPhase, h.readySponge, h.readyTail, h.idleZero,
    h.payloadConsumed⟩

theorem BlockInv.takeDigest (h : BlockInv s) (n : Nat) : BlockInv (s.takeDigest n) :=
  ⟨h.bufferWf, h.phaseLegal, h.errLegal, h.okNoError, h.okPhase, h.readySponge, h.readyTail, h.idleZero,
    h.payloadConsumed⟩

theorem BlockInv.exec {i : Instr} {p : List Byte} {rest : List HostMove} {t : State} (h : BlockInv s)
    (he : exec i (s.accept p rest) = .next t) : BlockInv t := by
  obtain ⟨-, -, ⟨code, rfl⟩ | ⟨bitsize, -, hb, rfl⟩ | ⟨bp, length, -, -, hr, -, rfl⟩ | ⟨-, -, -, rfl⟩⟩ := exec_next he
  · exact h.failed p rest code
  · exact blockInv_initBody hb _
  · exact h.absorbed hr p rest
  · exact blockInv_finalizeBody _

/-- Settles O44, by the ways a step can end. -/
theorem everyStepKeepsTheInvariant : Obligations.EveryStepKeepsTheInvariant := by
  intro s t h hstep
  rcases step_next hstep with ⟨-, rfl⟩ | ⟨w, p, rest, -, ⟨i, -, he⟩ | ⟨e, -, he⟩⟩ | ⟨rest, -, rfl⟩ |
    ⟨rest, -, -, rfl⟩ | ⟨n, rest, -, -, rfl⟩
  · exact h
  · exact h.exec he
  · obtain ⟨-, -, rfl⟩ := execIllegal_next he
    exact h.failed p rest .illegalCommand
  · exact blockInv_assertReset _
  · exact h.moveTaken rest
  · exact (h.moveTaken rest).takeDigest n

/-- Settles O45: after reset the HashState is zero in UNINIT, with OK = 0. -/
theorem resetMeetsTheInvariant : Obligations.ResetMeetsTheInvariant :=
  blockInv_of_hashStateZero ⟨rfl, rfl, rfl, rfl⟩ (.inl ⟨rfl, rfl⟩) rfl rfl

end Invariant

/-! ### With the guard every move completes -/

/-- This outcome is a next state. -/
def Completes (r : Result) : Prop := ∃ t, r = .next t

theorem Completes.next (t : State) : Completes (.next t) := ⟨t, rfl⟩

theorem Completes.ite {c : Prop} [Decidable c] {a b : Result} (ha : Completes a) (hb : Completes b) :
    Completes (if c then a else b) := by
  split
  · exact ha
  · exact hb

section Guarded

variable {s : State}

/-- With the guard the phase check has no fault but that of a broken sponge (R118, R155). -/
theorem Completes.whenReady {body : State → Result} (hg : s.config.seqGuard = true)
    (hs : s.phase = phaseReady → s.spongeOk = true) (hbody : Completes (body s)) : Completes (whenReady s body) := by
  by_cases hr : s.phase = phaseReady
  · rw [whenReady_of_ready hr (hs hr)]
    exact hbody
  · rw [whenReady_of_guarded hr hg]
    exact .next _

theorem exec_completes {i : Instr} (hpos : Possible s) (hg : s.config.seqGuard = true)
    (hs : s.phase = phaseReady → s.spongeOk = true) (hl : s.payload.length = i.announced) : Completes (exec i s) := by
  cases i with
  | init hp bitsize =>
    rw [exec, execInit, transact_of_possible hl hpos]
    exact .ite (.next _) (.ite (.next _) (.next _))
  | update hp bp length =>
    rw [exec, execUpdate, transact_of_possible hl hpos]
    exact .ite (.next _) (.ite (.next _) (.whenReady hg hs (.next _)))
  | finalize hp bp =>
    rw [exec, execFinalize, transact_of_possible hl hpos]
    exact .ite (.next _) (.ite (.next _) (.whenReady hg hs (.next _)))

theorem step_transaction_completes {w : Word} {p : List Byte} {rest : List HostMove} (hpos : Possible s)
    (hg : s.config.seqGuard = true) (hs : s.phase = phaseReady → s.spongeOk = true)
    (hc : s.channel = .transaction w p :: rest) (hl : p.length = announced w) : Completes (step s) := by
  cases hd : decode w with
  | ok i =>
    rw [step_command hc hd]
    exact exec_completes (hpos.accept p rest) hg hs (hl.trans (announced_of_decode hd).symm)
  | error e =>
    have hdelivered : (s.accept p rest).payload.length = announced w := hl
    rw [step_illegal hc hd, execIllegal, transact_of_possible hdelivered (hpos.accept p rest)]
    exact .next _

theorem BlockInv.possible (h : BlockInv s) (hm : s.faultMark = false) : Possible s :=
  ⟨hm, h.phaseLegal, h.errLegal⟩

/-- A move that completes leaves the fault mark as it was. -/
theorem Completes.unmarked (h : Completes (step s)) (hm : s.faultMark = false) :
    ∃ t, step s = .next t ∧ t.faultMark = false := by
  obtain ⟨t, ht⟩ := h
  exact ⟨t, ht, (step_faultMark ht).trans hm⟩

/-- Settles O46, by the host's move: a transaction meets the boundary check first, the others are always taken. -/
theorem guardedBlockNeverFaults : Obligations.GuardedBlockNeverFaults := by
  intro s h hm hg
  have hpos := h.possible hm
  cases hc : s.channel with
  | nil => exact .inl (Completes.unmarked ⟨_, step_idle hc⟩ hm)
  | cons move rest =>
    cases move with
    | transaction w p =>
      by_cases hl : p.length = announced w
      · exact .inl ((step_transaction_completes hpos hg h.readySponge hc hl).unmarked hm)
      · exact .inr ⟨w, p, rest, rfl, hl, illFormedTransactionIsRefused s w p rest hc hl⟩
    | reset => exact .inl (Completes.unmarked ⟨_, step_reset (.inl hc)⟩ hm)
    | resetDuring w p => exact .inl (Completes.unmarked ⟨_, step_reset (.inr ⟨w, p, hc⟩)⟩ hm)
    | readStatus => exact .inl (Completes.unmarked ⟨_, step_readStatus_of_possible hpos hc⟩ hm)
    | takeDigest n =>
      have hnext := (step_takeDigest hc).trans (whenPossible_of_possible (hpos.moveTaken rest) _)
      exact .inl (Completes.unmarked ⟨_, hnext⟩ hm)

end Guarded

end Sys2Proof.Machine
end

section
/-! The relocation of pi as a permutation of lane indices (R89), and the loop-driven engine (R95). -/
namespace Sys2Proof.Machine

/-! ### pi -/

/-- The list `P` of R89: lane `i` of the output is lane `P[i]` of the input. -/
def piSource : List (Fin 25) :=
  [0, 6, 12, 18, 24, 3, 9, 10, 16, 22, 1, 7, 13, 19, 20, 4, 5, 11, 17, 23, 2, 8, 14, 15, 21]

/-- `P` lists `(x + 3y) mod 5 + 5x` at `x + 5y`, the index that R89's formula reads. -/
theorem piSource_eq_map : piSource =
    (List.finRange 25).map fun i => ⟨(i.val % 5 + 3 * (i.val / 5)) % 5 + 5 * (i.val % 5 % 5), by omega⟩ := by decide

theorem piSource_perm : piSource.Perm (List.finRange 25) := by decide

theorem toList_eq_map (a : Lanes) : a.toList = (List.finRange 25).map fun i => a[i] := by
  rw [← List.ofFn_eq_map, ← Vector.toList_ofFn]
  exact congrArg Vector.toList (Vector.ext fun i hi => by simp)

theorem toList_pi (a : Lanes) : (pi a).toList = piSource.map fun i => a[i] := by
  rw [piSource_eq_map, List.map_map, pi, lanesOf, Vector.toList_ofFn, List.ofFn_eq_map]
  rfl

/-- Settles O10: the list is the formula evaluated at each index, and it is a permutation of the indices. -/
theorem piRelocatesLanes : Obligations.PiRelocatesLanes := by
  intro a
  refine ⟨toList_pi a, ?_⟩
  rw [toList_pi, toList_eq_map a]
  exact piSource_perm.map _

/-! ### The loop-driven engine -/

theorem drop_finRange {k : Nat} (hk : k < 24) :
    (List.finRange 24).drop k = ⟨k, hk⟩ :: (List.finRange 24).drop (k + 1) := by
  rw [List.drop_eq_getElem_cons (by simpa using hk), List.getElem_finRange]
  rfl

/-- From round index `k` on, as many cycles as rounds are left run those rounds. -/
theorem engineCycles_lanes {n k : Nat} (hk : k + n = 24) {r : EngineRegs} (hr : r.ir.toNat = k) (a : Lanes) :
    (engineCycles n (r, a)).2 = ((List.finRange 24).drop k).foldl keccakRound a := by
  induction n generalizing k r a with
  | zero =>
    subst hk
    rfl
  | succ n ih =>
    have hlt : k < 24 := by omega
    have hir : (r.ir + 1).toNat = k + 1 := by
      rw [BitVec.toNat_add, hr]
      exact Nat.mod_eq_of_lt (show k + 1 < 32 by omega)
    have hround : (⟨r.ir.toNat % 24, Nat.mod_lt _ (by decide)⟩ : Fin 24) = ⟨k, hlt⟩ :=
      Fin.ext ((congrArg (· % 24) hr).trans (Nat.mod_eq_of_lt hlt))
    rw [engineCycles, engineCycle, ih (by omega) hir, hround, drop_finRange hlt, List.foldl_cons]

/-- Settles O14: the 24 cycles from round index 0 run all 24 rounds. -/
theorem loopDrivenEngineComputesKeccakF : Obligations.LoopDrivenEngineComputesKeccakF := by
  intro a r hr
  rw [engineCycles_lanes (Nat.zero_add 24) (by rw [hr]; rfl), keccakF]
  rfl

end Sys2Proof.Machine
end

section
/-! Absorption and extraction byte by byte (R46, R47, R111), padding at offset 0 (R122), and UPDATE's count of flushes. -/
namespace Sys2Proof.Machine

/-- Settles O18: byte `k` of the lanes is byte `k % 8` of lane `k / 8`, which is a rate lane just if `k` is below the
rate. -/
theorem absorptionAndExtractionAgree : Obligations.AbsorptionAndExtractionAgree := by
  intro lanes m rate k hrate hk
  obtain ⟨-, -, hlanes⟩ := legalRate_bounds hrate
  have hidx : k / 8 % 25 < 25 := Nat.mod_lt _ (by decide)
  have hself : k / 8 % 25 = k / 8 := Nat.mod_eq_of_lt (by omega)
  have hbyte : (m.laneAt (k / 8 % 25)).extractLsb' (8 * (k % 8)) 8 = m.read k := by
    rw [memReadIsLittleEndian m _ _ (Nat.mod_lt k (by decide)), hself, Nat.div_add_mod]
  have hxor := getElem_xorBlock lanes m rate ⟨k / 8 % 25, hidx⟩
  simp only [Fin.getElem_fin] at hxor
  rw [laneByte, hxor]
  by_cases hlt : k < rate
  · rw [if_pos (by omega), if_pos hlt, BitVec.extractLsb'_xor, hbyte, laneByte]
  · rw [if_neg (by omega), if_neg hlt, laneByte]

/-- Settles O40: at offset 0 no byte of the block is kept, and the last one is not the first. -/
theorem exactBoundaryPadsAWholeBlock : Obligations.ExactBoundaryPadsAWholeBlock := by
  intro m rate a hw hrate ha
  obtain ⟨hpos, hsize, hlanes⟩ := legalRate_bounds hrate
  rw [read_padBlock hw hpos hsize, if_pos ⟨Nat.zero_le a, ha⟩]
  by_cases hfirst : a = 0
  · rw [if_pos hfirst, if_pos hfirst, if_neg (by omega)]
    rfl
  · rw [if_neg hfirst, if_neg hfirst]
    split <;> rfl

/-! ### UPDATE's offset and its count of flushes -/

section Count

variable {s : State}

/-- The bytes taken so far: whole blocks by the counter, and the offset. -/
def State.bytesTaken (s : State) : Nat := s.rateBytes.toNat * s.freeCount + s.bufferOffset.toNat

/-- A flush trades a full buffer for one more permutation. -/
theorem bytesTaken_absorbByte (h : s.spongeOk = true) (b : Byte) :
    (s.absorbByte b).bytesTaken = s.bytesTaken + 1 := by
  have hlt := (spongeOk_iff.1 h).2
  have hoff := absorbByte_offset h b
  have hfull := offset_succ_eq_rate_iff hlt
  rw [State.bytesTaken, State.bytesTaken, hoff, absorbByte_rateBytes]
  split
  · next heq =>
    rw [absorbByte_of_full (hfull.2 heq), absorbBlock_freeCount, storeByte_freeCount, Nat.mul_succ]
    omega
  · next hne =>
    rw [absorbByte_of_not_full (mt hfull.1 hne), storeByte_freeCount]
    omega

theorem bytesTaken_absorbBytes (h : s.spongeOk = true) (data : List Byte) :
    (s.absorbBytes data).bytesTaken = s.bytesTaken + data.length := by
  induction data generalizing s with
  | nil => rfl
  | cons b data ih =>
    rw [absorbBytes_cons, ih (spongeOk_absorbByte h b), bytesTaken_absorbByte h b, List.length_cons]
    omega

/-- The loop's offset and count are remainder and quotient of the bytes taken since the last flush. -/
theorem absorbBytes_count (h : s.spongeOk = true) (data : List Byte) :
    (s.absorbBytes data).bufferOffset.toNat = (s.bufferOffset.toNat + data.length) % s.rateBytes.toNat ∧
    (s.absorbBytes data).freeCount = s.freeCount + (s.bufferOffset.toNat + data.length) / s.rateBytes.toNat := by
  have hlt := (spongeOk_iff.1 (spongeOk_absorbBytes h data)).2
  have htaken := bytesTaken_absorbBytes h data
  rw [absorbBytes_rateBytes] at hlt
  rw [State.bytesTaken, State.bytesTaken, absorbBytes_rateBytes, Nat.add_assoc] at htaken
  have hpos : 0 < s.rateBytes.toNat := by omega
  constructor
  · rw [← Nat.mul_add_mod s.rateBytes.toNat s.freeCount, ← htaken, Nat.mul_add_mod, Nat.mod_eq_of_lt hlt]
  · rw [← Nat.mul_add_div hpos, ← htaken, Nat.mul_add_div hpos, Nat.div_eq_of_lt hlt, Nat.add_zero]

/-- The loop writes lanes, buffer, offset, the engine's registers and the counter. -/
theorem absorbBytes_frame (s : State) (data : List Byte) :
    s.absorbBytes data = { s with
      lanes := (s.absorbBytes data).lanes, blockBuffer := (s.absorbBytes data).blockBuffer
      bufferOffset := (s.absorbBytes data).bufferOffset, engine := (s.absorbBytes data).engine
      freeCount := (s.absorbBytes data).freeCount } := by
  induction data generalizing s with
  | nil => rfl
  | cons b data ih =>
    rw [absorbBytes_cons, ih]
    rcases absorbByte_cases s b with ⟨-, hb⟩ | ⟨-, hb⟩
    · rw [hb]; rfl
    · rw [hb]; rfl

end Count

/-- Settles O31: UPDATE in READY is its loop, whose count, bytes above the rate and frame are known. -/
theorem updateOffsetAndPermutationCount : Obligations.UpdateOffsetAndPermutationCount := by
  rintro s bp _ hpos hr hs hb rfl
  obtain ⟨hoff, hcount⟩ := absorbBytes_count hs s.payload
  exact ⟨_, exec_update_of_ready hpos hr hs hb rfl, hoff, hcount,
    fun hw a ha => absorbBytes_read_above hw hs s.payload ha, congrArg State.completed (absorbBytes_frame s s.payload)⟩

end Sys2Proof.Machine
end

section
/-! Fixed command words (R66, R68), dispatch (R74), the digest channel at reset (R170), and the sponge that no rule leaves
(R21, R24, R155). -/
namespace Sys2Proof.Machine

/-- Settles O4, by running the decoder. -/
theorem wordsWrittenOutDecode : Obligations.WordsWrittenOutDecode := by
  unfold Obligations.WordsWrittenOutDecode
  decide

/-- Settles O21: both forms of reset are `assertReset`, which does not write the channel. -/
theorem resetLeavesTheDigestChannel : Obligations.ResetLeavesTheDigestChannel := by
  intro s t rest hc h
  rw [step_reset hc] at h
  cases h
  rw [assertReset_digestOut, moveTaken_digestOut]

/-- Settles O26: the accepted state is the state with the transaction taken and its payload delivered. -/
theorem stepRunsTheDecodedCommand : Obligations.StepRunsTheDecodedCommand :=
  fun _ _ _ _ _ hc hd => step_command hc hd

/-! ### A READY state that no rule leaves -/

theorem whenReady_of_broken {s : State} (hr : s.phase = phaseReady) (hs : s.spongeOk = false)
    (body : State → Result) : whenReady s body = .fault (.brokenSponge s.recordFault) := by
  rw [whenReady, if_pos hr, if_neg (by simp [hs])]

/-- The rate register holds a legal rate just if it is one of the four values. -/
theorem legalRate_toNat_iff (r : BitVec 8) : legalRate r.toNat = true ↔ r = 144 ∨ r = 136 ∨ r = 104 ∨ r = 72 := by
  simp only [legalRate, Bool.or_eq_true, beq_iff_eq, or_assoc, ← BitVec.toNat_inj]
  rfl

/-- Settles O54: with valid arguments each command comes to the phase check, which faults on such a sponge. -/
theorem brokenSpongeFaults : Obligations.BrokenSpongeFaults := by
  intro s hpos hr hbroken
  have hs : s.spongeOk = false := by
    rw [Bool.eq_false_iff, Ne, spongeOk_iff, legalRate_toNat_iff]
    rintro ⟨hrate, hlt⟩
    rcases hbroken with ⟨h144, h136, h104, h72⟩ | hle
    · rcases hrate with h | h | h | h
      · exact h144 h
      · exact h136 h
      · exact h104 h
      · exact h72 h
    · omega
  constructor
  · intro hl
    rw [exec_finalize_of_valid hpos hl, whenReady_of_broken hr hs]
    rfl
  · intro bp length hb hl
    rw [exec_update_of_valid hpos hb hl, whenReady_of_broken hr hs]
    rfl

end Sys2Proof.Machine
end

section
/-! A message in several UPDATE transactions (R119): each transaction is the loop over its segment, and the loop over the
segments one after the other is the loop over the message. -/
namespace Sys2Proof.Machine

/-! ### The loop and the updates of fields that it does not touch -/

section Commutes

variable {f : State → State}

/-- An update that leaves rate and offset and commutes with storing and flushing commutes with UPDATE's loop. -/
theorem absorbBytes_comm (hrate : ∀ s, (f s).rateBytes = s.rateBytes) (hoff : ∀ s, (f s).bufferOffset = s.bufferOffset)
    (hstore : ∀ s b, (f s).storeByte b = f (s.storeByte b)) (hblock : ∀ s, (f s).absorbBlock = f s.absorbBlock)
    (s : State) (data : List Byte) : (f s).absorbBytes data = f (s.absorbBytes data) := by
  induction data generalizing s with
  | nil => rfl
  | cons b data ih =>
    have hbyte : (f s).absorbByte b = f (s.absorbByte b) := by
      by_cases h : s.bufferOffset + 1 = s.rateBytes
      · rw [absorbByte_of_full (by rw [hoff, hrate, h]), absorbByte_of_full h, hstore, hblock]
      · rw [absorbByte_of_not_full (by rwa [hoff, hrate]), absorbByte_of_not_full h, hstore]
    rw [absorbBytes_cons, hbyte, ih, absorbBytes_cons]

theorem absorbBytes_completed (s : State) (data : List Byte) :
    s.completed.absorbBytes data = (s.absorbBytes data).completed :=
  absorbBytes_comm (f := State.completed) (fun _ => rfl) (fun _ => rfl) (fun _ _ => rfl) (fun _ => rfl) s data

theorem absorbBytes_moveTaken (rest : List HostMove) (s : State) (data : List Byte) :
    (s.moveTaken rest).absorbBytes data = (s.absorbBytes data).moveTaken rest :=
  absorbBytes_comm (f := State.moveTaken rest) (fun _ => rfl) (fun _ => rfl) (fun _ _ => rfl) (fun _ => rfl) s data

end Commutes

/-! ### A run of UPDATE transactions -/

/-- The UPDATE transactions that bring these segments. -/
def updateMoves (chunks : List (List Byte)) : List HostMove :=
  chunks.map fun c => .transaction (encode (.update true true c.length)) c

theorem decode_encode_update {length : Nat} (h : length ≤ 65535) :
    decode (encode (.update true true length)) = .ok (.update true true length) :=
  decodeOfEncodeIsTheCommand _ (fitsArg_iff.2 (Nat.lt_succ_of_le h))

section Run

variable {s : State} {rest : List HostMove}

/-- The state after UPDATE transactions that brought these bytes. -/
def State.updated (data : List Byte) (rest : List HostMove) (s : State) : State :=
  (s.absorbBytes data).completed.moveTaken rest

/-- UPDATEs of two byte strings one after the other leave what UPDATEs of the joined string do (R119). -/
theorem updated_updated (a b : List Byte) (rest' : List HostMove) :
    (s.updated a rest').updated b rest = s.updated (a ++ b) rest := by
  rw [State.updated, State.updated, absorbBytes_moveTaken, absorbBytes_completed, ← absorbBytes_append]
  rfl

theorem step_update {c : List Byte} (hpos : Possible s) (hr : s.phase = phaseReady) (hs : s.spongeOk = true)
    (hlen : c.length ≤ 65535) (hc : s.channel = .transaction (encode (.update true true c.length)) c :: rest) :
    step s = .next (s.updated c rest) := by
  have hexec : exec (.update true true c.length) (s.accept c rest) =
      .next ((s.accept c rest).absorbBytes c).completed :=
    exec_update_of_ready (hpos.accept c rest) hr hs (.inl rfl) rfl
  have hloop : (s.accept c rest).absorbBytes c = ((s.absorbBytes c).moveTaken rest).withPayload c := by
    rw [← absorbBytes_moveTaken, ← absorbBytes_withPayload]
    rfl
  rw [step_command hc (decode_encode_update hlen), hexec, hloop, completed_withPayload]
  rfl

theorem possible_updated (h : Possible s) (data : List Byte) (rest : List HostMove) :
    Possible (s.updated data rest) :=
  ⟨(absorbBytes_faultMark s data).trans h.unmarked, (absorbBytes_phase s data).symm ▸ h.phaseLegal, rfl⟩

theorem updated_phase (s : State) (data : List Byte) (rest : List HostMove) :
    (s.updated data rest).phase = s.phase := absorbBytes_phase s data

theorem spongeOk_updated (h : s.spongeOk = true) (data : List Byte) (rest : List HostMove) :
    (s.updated data rest).spongeOk = true := spongeOk_absorbBytes h data

/-- The transactions of one message run to the state that the loop over the whole message leaves (R119). An empty list
of segments runs no transaction, so STATUS must report success beforehand. -/
theorem steps_updates {chunks : List (List Byte)} (hpos : Possible s) (hr : s.phase = phaseReady)
    (hs : s.spongeOk = true) (hlen : ∀ c ∈ chunks, c.length ≤ 65535) (hdone : chunks ≠ [] ∨ s.completed = s)
    (hc : s.channel = updateMoves chunks ++ rest) (k : Nat) :
    steps (chunks.length + k) s = steps k (s.updated chunks.flatten rest) := by
  induction chunks generalizing s with
  | nil =>
    have hstays : s.completed = s := hdone.resolve_left (absurd rfl)
    have hrest : rest = s.channel := hc.symm
    rw [List.flatten_nil, State.updated, absorbBytes_nil, hstays, hrest, List.length_nil, Nat.zero_add]
    rfl
  | cons c chunks ih =>
    rw [List.forall_mem_cons] at hlen
    have hstep := step_update (rest := updateMoves chunks ++ rest) hpos hr hs hlen.1 hc
    rw [List.length_cons, Nat.add_right_comm, steps_succ hstep,
      ih (s := s.updated c (updateMoves chunks ++ rest)) (possible_updated hpos c _) ((updated_phase s c _).trans hr)
        (spongeOk_updated hs c _) hlen.2 (.inr rfl) rfl,
      updated_updated, List.flatten_cons]

end Run

/-- Settles O37: both splits run to the state of the loop over the one message. -/
theorem chunkingDoesNotChangeTheState : Obligations.ChunkingDoesNotChangeTheState := by
  intro s first second rest hpos hr hs hfirst hsecond hflat hlen1 hlen2
  have hrun : ∀ chunks : List (List Byte), chunks ≠ [] → (∀ c ∈ chunks, c.length ≤ 65535) →
      steps chunks.length (s.moveTaken (updateMoves chunks ++ rest)) = .next (s.updated chunks.flatten rest) := by
    intro chunks hne hlen
    have hsteps := steps_updates (hpos.moveTaken (updateMoves chunks ++ rest)) hr hs hlen (.inl hne) rfl 0
    rw [Nat.add_zero, State.updated, absorbBytes_moveTaken] at hsteps
    exact hsteps
  exact ⟨s.updated first.flatten rest, (absorbBytes_phase s _).trans hr, rfl, hrun first hfirst hlen1,
    hflat ▸ hrun second hsecond hlen2⟩

end Sys2Proof.Machine
end

section
/-! The closed form of the digest (R132): the padded message block by block is what UPDATE's loop and FINALIZE absorb. -/
namespace Sys2Proof.Machine

/-! ### A block as a list and in the buffer -/

/-- The buffer holds this list from address 0 on. -/
def Memory.Holds (m : Memory) (block : List Byte) : Prop := ∀ (a : Nat) (h : a < block.length), m.read a = block[a]

theorem memRead_eq_littleEndian {m : Memory} {block : List Byte} (h : m.Holds block) {addr n : Nat}
    (hfit : addr + n ≤ block.length) : m.memRead addr n = littleEndian ((block.drop addr).take n) := by
  induction n generalizing addr with
  | zero => rw [List.take_zero]; rfl
  | succ n ih =>
    have hlt : addr < block.length := by omega
    rw [Memory.memRead, ih (by omega), h addr hlt, List.drop_eq_getElem_cons hlt, List.take_succ_cons]
    rfl

theorem keccakF_xorBlock_eq {m : Memory} {block : List Byte} (h : m.Holds block) (lanes : Lanes) :
    keccakF (xorBlock lanes m block.length) = absorbListBlock block.length lanes block := by
  refine congrArg keccakF (congrArg Vector.ofFn (funext fun k => ?_))
  by_cases hk : k.val < block.length / 8
  · rw [if_pos hk, if_pos hk, Memory.laneAt, memRead_eq_littleEndian h (by omega)]
  · rw [if_neg hk, if_neg hk]

/-! ### The padded message -/

theorem modify_append_right {α : Type} (l₁ l₂ : List α) (i : Nat) (f : α → α) :
    (l₁ ++ l₂).modify (l₁.length + i) f = l₁ ++ l₂.modify i f := by
  induction l₁ with
  | nil => simp
  | cons a l₁ ih => rw [List.cons_append, List.length_cons, Nat.succ_add, List.modify_succ_cons, ih, List.cons_append]

section Padded

variable {r : Nat} {m : List Byte}

theorem length_lt_paddedLength (hr : 0 < r) (len : Nat) : len < paddedLength r len := Nat.lt_mul_div_succ len hr

theorem length_paddedMessage (hr : 0 < r) : (paddedMessage r m).length = paddedLength r m.length := by
  have := length_lt_paddedLength hr m.length
  simp only [paddedMessage, List.length_modify, List.length_append, List.length_replicate]
  omega

/-- A whole block in front of a message is a whole block in front of the padded message. -/
theorem paddedMessage_append {block : List Byte} (hr : 0 < r) (hb : block.length = r) :
    paddedMessage r (block ++ m) = block ++ paddedMessage r m := by
  have hlt := length_lt_paddedLength hr m.length
  have hlen : paddedLength r (block ++ m).length = block.length + paddedLength r m.length := by
    rw [paddedLength, paddedLength, List.length_append, hb, Nat.add_div_left _ hr, Nat.mul_succ]
    omega
  have hfill : paddedLength r (block ++ m).length - (block ++ m).length = paddedLength r m.length - m.length := by
    rw [hlen, List.length_append]
    omega
  have hlast : paddedLength r (block ++ m).length - 1 = block.length + (paddedLength r m.length - 1) := by omega
  simp only [paddedMessage]
  rw [hfill, hlast, List.append_assoc, List.length_append, modify_append_right, modify_append_right]

theorem paddedLength_of_lt (h : m.length < r) : paddedLength r m.length = r := by
  rw [paddedLength, Nat.div_eq_of_lt h, Nat.zero_add, Nat.mul_one]

/-- The last block of the padded message, byte by byte (R121, R132). -/
theorem getElem_paddedMessage (h : m.length < r) {a : Nat} (ha : a < (paddedMessage r m).length) :
    (paddedMessage r m)[a] = if m.length ≤ a then
        (if a = m.length then Config.domainByte else 0) ||| (if a = r - 1 then Config.lastPadByte else 0)
      else m.getD a 0 := by
  have hlast : paddedLength r m.length - 1 = r - 1 := by rw [paddedLength_of_lt h]
  simp only [paddedMessage, List.getElem_modify, hlast]
  rcases Nat.lt_or_ge a m.length with hm | hm
  · rw [if_neg (by omega), if_neg (by omega), if_neg (by omega), List.getElem_append_left hm, List.getD_eq_getElem _ _ hm]
  · rw [List.getElem_append_right hm, List.getElem_replicate, if_pos hm]
    simp only [eq_comm (a := a)]
    by_cases hfirst : m.length = a <;> by_cases hend : r - 1 = a <;>
      simp [hfirst, hend, Config.domainByte, Config.lastPadByte]

end Padded

/-! ### What the loop and FINALIZE absorb -/

section Absorbed

variable {s : State}

theorem absorbListBlocks_succ (r n : Nat) (lanes : Lanes) (p : List Byte) :
    absorbListBlocks r (n + 1) lanes p = absorbListBlocks r n (absorbListBlock r lanes (p.take r)) (p.drop r) := rfl

/-- A whole block from offset 0 fills the buffer with itself, and is flushed. -/
theorem absorbBytes_block {block : List Byte} (hw : s.blockBuffer.wf = true) (hs : s.spongeOk = true)
    (hoff : s.bufferOffset.toNat = 0) (hlen : block.length = s.rateBytes.toNat) :
    (s.absorbBytes block).lanes = absorbListBlock s.rateBytes.toNat s.lanes block ∧
    (s.absorbBytes block).bufferOffset.toNat = 0 := by
  obtain ⟨hlegal, hlt⟩ := spongeOk_iff.1 hs
  obtain ⟨-, hsize, -⟩ := legalRate_bounds hlegal
  have hholds : (s.storeBytes block).blockBuffer.Holds block := by
    intro a ha
    rw [read_storeBytes hw (by omega), if_pos (by omega), hoff, Nat.sub_zero, List.getD_eq_getElem _ _ ha]
  rw [absorbBytes_of_fills hlt (by omega), absorbBlock_lanes, storeBytes_lanes, storeBytes_rateBytes, ← hlen,
    keccakF_xorBlock_eq hholds]
  exact ⟨rfl, rfl⟩

/-- A message shorter than the rate from offset 0: the padded buffer holds its one padded block. -/
theorem padded_holds {m : List Byte} (hw : s.blockBuffer.wf = true) (hs : s.spongeOk = true)
    (hoff : s.bufferOffset.toNat = 0) (hlt : m.length < s.rateBytes.toNat) :
    (s.absorbBytes m).pad.blockBuffer.Holds (paddedMessage s.rateBytes.toNat m) := by
  obtain ⟨hlegal, hpos⟩ := spongeOk_iff.1 hs
  obtain ⟨-, hsize, -⟩ := legalRate_bounds hlegal
  have hend : (s.absorbBytes m).bufferOffset.toNat = m.length := by
    rw [(absorbBytes_count hs m).1, hoff, Nat.zero_add, Nat.mod_eq_of_lt hlt]
  intro a ha
  rw [getElem_paddedMessage hlt ha, pad_blockBuffer, hend, absorbBytes_rateBytes,
    read_padBlock (absorbBytes_bufferWf hw m) hlt hsize]
  have har : a < s.rateBytes.toNat := by
    rwa [length_paddedMessage (by omega), paddedLength_of_lt hlt] at ha
  by_cases hmsg : m.length ≤ a
  · rw [if_pos ⟨hmsg, har⟩, if_pos hmsg]
  · rw [if_neg (by omega), if_neg hmsg, absorbBytes_of_lt (by omega), read_storeBytes hw (by omega), if_pos (by omega),
      hoff, Nat.sub_zero]

/-- From offset 0 the loop, padding and the last flush absorb the padded message block by block: by induction on the
whole blocks of the message. -/
theorem absorbBytes_pad_lanes {m : List Byte} (hw : s.blockBuffer.wf = true) (hs : s.spongeOk = true)
    (hoff : s.bufferOffset.toNat = 0) :
    (s.absorbBytes m).pad.absorbBlock.lanes =
      absorbListBlocks s.rateBytes.toNat (m.length / s.rateBytes.toNat + 1) s.lanes
        (paddedMessage s.rateBytes.toNat m) := by
  have hpos : 0 < s.rateBytes.toNat := Nat.zero_lt_of_lt (spongeOk_iff.1 hs).2
  induction hq : m.length / s.rateBytes.toNat generalizing s m with
  | zero =>
    have hlt : m.length < s.rateBytes.toNat := (Nat.div_eq_zero_iff_lt hpos).1 hq
    have hlen : (paddedMessage s.rateBytes.toNat m).length = s.rateBytes.toNat := by
      rw [length_paddedMessage hpos, paddedLength_of_lt hlt]
    have hblock := keccakF_xorBlock_eq (padded_holds hw hs hoff hlt) s.lanes
    rw [hlen] at hblock
    rw [absorbBlock_lanes, pad_lanes, pad_rateBytes, absorbBytes_rateBytes, absorbListBlocks_succ, absorbListBlocks,
      List.take_of_length_le hlen.le, ← hblock, absorbBytes_of_lt (by omega), storeBytes_lanes]
  | succ q ih =>
    obtain ⟨block, tail, rfl, hlen⟩ : ∃ block tail, m = block ++ tail ∧ block.length = s.rateBytes.toNat := by
      refine ⟨m.take s.rateBytes.toNat, m.drop s.rateBytes.toNat, (List.take_append_drop _ m).symm, ?_⟩
      have hle : s.rateBytes.toNat ≤ m.length := (Nat.div_pos_iff.1 (by omega)).2
      rw [List.length_take, Nat.min_eq_left hle]
    obtain ⟨hlanes, hzero⟩ := absorbBytes_block hw hs hoff hlen
    have htail : tail.length / (s.absorbBytes block).rateBytes.toNat = q := by
      rw [List.length_append, hlen, Nat.add_div_left _ hpos] at hq
      rw [absorbBytes_rateBytes]
      exact Nat.succ.inj hq
    rw [absorbBytes_append, ih (absorbBytes_bufferWf hw block) (spongeOk_absorbBytes hs block) hzero (by simpa using hpos)
      htail, absorbBytes_rateBytes, hlanes, paddedMessage_append hpos hlen, absorbListBlocks_succ _ (q + 1),
      List.take_left' hlen, List.drop_left' hlen]

end Absorbed

end Sys2Proof.Machine
end

section
/-! INIT, UPDATEs and FINALIZE compute SHA3 (R132), and the pseudo-instruction `sha3` is such a program (R76). -/
namespace Sys2Proof.Machine

section Run

variable {s : State} {rest : List HostMove} {bitsize : Nat}

def initMove (bitsize : Nat) : HostMove := .transaction (encode (.init true bitsize)) []

def finalizeMove : HostMove := .transaction (encode (.finalize true true)) []

/-- The state after a successful INIT transaction. -/
def State.begun (bitsize : Nat) (rest : List HostMove) (s : State) : State :=
  (initBody bitsize (s.accept [] rest)).completed

/-- The state after a successful FINALIZE transaction. -/
def State.finished (rest : List HostMove) (s : State) : State := (finalizeBody (s.accept [] rest)).completed

theorem fitsArg_of_supported (hb : supportedBitsize bitsize = true) : fitsArg bitsize = true := by
  rcases supportedBitsize_iff.1 hb with rfl | rfl | rfl | rfl <;> rfl

theorem step_init (hpos : Possible s) (hb : supportedBitsize bitsize = true)
    (hc : s.channel = initMove bitsize :: rest) : step s = .next (s.begun bitsize rest) := by
  have hd : decode (encode (.init true bitsize)) = .ok (.init true bitsize) :=
    decodeOfEncodeIsTheCommand _ (fitsArg_of_supported hb)
  rw [step_command hc hd, exec_init_of_supported (hpos.accept [] rest) rfl hb]
  rfl

theorem step_finalize (hpos : Possible s) (hr : s.phase = phaseReady) (hs : s.spongeOk = true)
    (hc : s.channel = finalizeMove :: rest) : step s = .next (s.finished rest) := by
  have hd : decode (encode (.finalize true true)) = .ok (.finalize true true) := decodeOfEncodeIsTheCommand _ rfl
  have hexec : exec (.finalize true true) (s.accept [] rest) = .next (s.finished rest) :=
    exec_finalize_of_ready (hpos.accept [] rest) hr hs rfl
  rw [step_command hc hd, hexec]

theorem possible_begun (h : Possible s) (bitsize : Nat) (rest : List HostMove) : Possible (s.begun bitsize rest) :=
  ⟨h.unmarked, phaseReady_ne_reserved, rfl⟩

theorem spongeOk_begun (hb : supportedBitsize bitsize = true) (s : State) (rest : List HostMove) :
    (s.begun bitsize rest).spongeOk = true := spongeOk_initBody hb (s.accept [] rest)

/-- The transactions of one hash, each run to the state it leaves. -/
theorem steps_hash {chunks : List (List Byte)} (hpos : Possible s) (hb : supportedBitsize bitsize = true)
    (hlen : ∀ c ∈ chunks, c.length ≤ 65535)
    (hc : s.channel = initMove bitsize :: (updateMoves chunks ++ finalizeMove :: rest)) :
    steps (chunks.length + 2) s =
      .next (((s.begun bitsize (updateMoves chunks ++ finalizeMove :: rest)).updated chunks.flatten
        (finalizeMove :: rest)).finished rest) := by
  have hinit := step_init hpos hb hc
  have hpos₁ := possible_begun hpos bitsize (updateMoves chunks ++ finalizeMove :: rest)
  have hs₁ := spongeOk_begun hb s (updateMoves chunks ++ finalizeMove :: rest)
  have hpos₂ := possible_updated hpos₁ chunks.flatten (finalizeMove :: rest)
  have hs₂ := spongeOk_updated hs₁ chunks.flatten (finalizeMove :: rest)
  rw [steps_succ hinit, steps_updates hpos₁ rfl hs₁ hlen (.inr rfl) rfl,
    steps_succ (step_finalize hpos₂ (updated_phase _ _ _) hs₂ rfl), steps_zero]

/-- The digest of a message that INIT has begun is the closed form. -/
theorem digest_eq_sha3 (hb : supportedBitsize bitsize = true) (s : State) (m : List Byte) :
    ((initBody bitsize s).absorbBytes m).pad.absorbBlock.digest = sha3 bitsize m := by
  have hlanes := absorbBytes_pad_lanes (s := initBody bitsize s) (m := m) rfl (spongeOk_initBody hb s) rfl
  obtain ⟨-, hdigest, -⟩ := rateAndDigestLengthOfEachVariant.2 bitsize hb
  rw [initBody_rateBytes_toNat hb] at hlanes
  rw [State.digest, hlanes, absorbBlock_rateBytes, pad_rateBytes, absorbBytes_rateBytes, initBody_rateBytes_toNat hb,
    hdigest]
  rfl

/-- The digest reads the HashState alone. -/
theorem digest_pad_congr {t : State} (hlanes : t.lanes = s.lanes) (hrate : t.rateBytes = s.rateBytes)
    (hbuf : t.blockBuffer = s.blockBuffer) (hoff : t.bufferOffset = s.bufferOffset) :
    t.pad.absorbBlock.digest = s.pad.absorbBlock.digest := by
  simp [State.digest, hlanes, hrate, hbuf, hoff]

/-- The run emits the closed form behind what was on the channel. -/
theorem finished_digestOut (hb : supportedBitsize bitsize = true) (s : State) (m : List Byte)
    (r₁ r₂ r₃ : List HostMove) :
    (((s.begun bitsize r₁).updated m r₂).finished r₃).digestOut = s.digestOut ++ sha3 bitsize m := by
  have hloop : (s.begun bitsize r₁).absorbBytes m = ((initBody bitsize (s.accept [] r₁)).absorbBytes m).completed :=
    absorbBytes_completed _ m
  have hdigest : (((s.begun bitsize r₁).updated m r₂).accept [] r₃).pad.absorbBlock.digest = sha3 bitsize m := by
    rw [← digest_eq_sha3 hb (s.accept [] r₁) m, State.updated, hloop]
    exact digest_pad_congr rfl rfl rfl rfl
  rw [State.finished, completed_digestOut, finalizeBody_digestOut, hdigest]
  simp [State.updated, State.begun]

end Run

/-- Settles O57: INIT begins the message, the UPDATEs run as one loop over it, and FINALIZE emits its digest. -/
theorem commandsComputeSha3 : Obligations.CommandsComputeSha3 := by
  intro s bitsize chunks rest hpos hb hlen
  exact ⟨_, steps_hash (hpos.moveTaken _) hb hlen rfl, finished_digestOut hb _ _ _ _ _, hashStateZero_finalizeBody _, rfl,
    finalizeBody_status _, rfl⟩

theorem steps_faultMark {k : Nat} {s t : State} (h : steps k s = .next t) : t.faultMark = s.faultMark := by
  induction k generalizing s with
  | zero =>
    cases h
    rfl
  | succ k ih =>
    rw [steps] at h
    split at h
    · next u hu => rw [ih h, step_faultMark hu]
    · cases h
    · cases h

/-! ### The pseudo-instruction -/

/-- One UPDATE of the assembler for each segment. -/
def updateProgram (chunks : List (List Byte)) : List Asm.Transaction :=
  chunks.map fun c => (encode (.update true true c.length), c)

/-- `update.long` is a list of UPDATEs whose segments make up the data (R76). -/
theorem updateChunks_eq {n : Nat} {data : List Byte} (h : data.length ≤ 65535 * n) :
    ∃ chunks : List (List Byte), (∀ c ∈ chunks, c.length ≤ 65535) ∧ chunks.flatten = data ∧
      Asm.updateChunks n data = updateProgram chunks := by
  induction n generalizing data with
  | zero => exact ⟨[], nofun, (List.eq_nil_of_length_eq_zero (by omega)).symm, rfl⟩
  | succ n ih =>
    by_cases hshort : data.length ≤ 65535
    · refine ⟨[data], by simpa using hshort, by simp, ?_⟩
      rw [Asm.updateChunks, if_pos hshort, List.take_of_length_le hshort]
      rfl
    · obtain ⟨chunks, hlen, hflat, heq⟩ := ih (data := data.drop 65535) (by rw [List.length_drop]; omega)
      refine ⟨data.take 65535 :: chunks, List.forall_mem_cons.2 ⟨List.length_take_le _ _, hlen⟩, ?_, ?_⟩
      · rw [List.flatten_cons, hflat, List.take_append_drop]
      · rw [Asm.updateChunks, if_neg hshort, heq]
        rfl

/-- INIT, the transactions given, FINALIZE. -/
def hashProgram (bitsize : Nat) (updates : List Asm.Transaction) : List Asm.Transaction :=
  (encode (.init true bitsize), []) :: updates ++ [(encode (.finalize true true), [])]

theorem sha3Program_eq {bitsize : Nat} (hb : supportedBitsize bitsize = true) (data : List Byte) :
    Asm.sha3Program bitsize data = some (hashProgram bitsize (Asm.updateLong data)) := by
  rw [Asm.sha3Program, Asm.initWith, if_pos (fitsArg_of_supported hb)]
  rfl

theorem moves_hashProgram (bitsize : Nat) (chunks : List (List Byte)) :
    Asm.moves (hashProgram bitsize (updateProgram chunks)) =
      initMove bitsize :: (updateMoves chunks ++ [finalizeMove]) := by
  rw [Asm.moves, hashProgram, updateProgram, List.cons_append, List.map_cons, List.map_append, List.map_map]
  rfl

theorem length_hashProgram (bitsize : Nat) (chunks : List (List Byte)) :
    (hashProgram bitsize (updateProgram chunks)).length = chunks.length + 2 := by
  simp [hashProgram, updateProgram]

/-- Settles O58: the expansion is INIT, UPDATEs of the data's segments and FINALIZE, the run of O57. -/
theorem sha3PseudoInstructionEmitsTheDigest : Obligations.Sha3PseudoInstructionEmitsTheDigest := by
  intro s bitsize data hpos hb
  obtain ⟨chunks, hlen, hflat, hchunks⟩ := updateChunks_eq (n := data.length / 65535 + 1) (data := data) (by omega)
  obtain ⟨t, hrun, hdigest, -, -, -, hend⟩ := commandsComputeSha3 s bitsize chunks [] hpos hb hlen
  refine ⟨_, t, sha3Program_eq hb data, ?_, hflat ▸ hdigest, hend, (steps_faultMark hrun).trans hpos.unmarked⟩
  rw [Asm.updateLong, hchunks, moves_hashProgram, length_hashProgram]
  exact hrun

end Sys2Proof.Machine
end
